-- ==== Sys2Proof/Word.lean ====
section
/-! DEFINITION. The word types of the block: 32-bit registers, 8-bit key bytes, 36-bit command and response words
(00_scope.md R6, R7). -/

namespace Sys2Proof

/-- A 32-bit register value, unsigned, with wrap-around (00_scope.md R6, R10). -/
abbrev Word := BitVec 32

/-- A key byte, 8 bits, unsigned (00_scope.md R6, 20_memory.md R49). -/
abbrev Byte := BitVec 8

/-- A command word (30_encoding.md R65). -/
abbrev CmdWord := BitVec 36

/-- A response word (30_encoding.md R66). -/
abbrev RspWord := BitVec 36

end Sys2Proof
end

