-- ==== Sys2Proof/Config.lean ====
section
/-! DEFINITION. What the implementation of the block fixes, and the values the spec leaves open. -/

namespace Sys2Proof

/-- The value of `HAS_SCAN` in the instance the spec describes (00_scope.md R7). The model carries the parameter in
`State.hasScan`, so that it holds for both values (DESIGN CHOICE, log 1; safe). -/
def Config.instanceHasScan : Bool := true

/-- Free value: what general register number `r` (0 is A, 1 is B, 2 is C) holds after the `k`-th reset applied to the
running block (70_reset_and_hazards.md R215, R216 "become unspecified"; log 6; safe). -/
opaque Config.residueWord : (k r : Nat) → Word

/-- Free value: what lane `lane` of `BUF` holds after the `k`-th reset applied to the running block
(70_reset_and_hazards.md R215, R216; log 6; safe). -/
opaque Config.residueByte : (k lane : Nat) → Byte

/-- What a lane of `BUF` that nothing has written reads as (DESIGN CHOICE, log 5; unsafe). -/
def Config.unwrittenLane : Byte := 0x00#8

end Sys2Proof
end

