-- ==== Sys2Proof/Syntax.lean ====
section
/-! DEFINITION. The nine commands of the opcode map (30_encoding.md R67) and the three rejections (60_exceptions.md
R190). -/

namespace Sys2Proof

/-- A command with a legal operand, one constructor per row of the opcode map (30_encoding.md R67, R68). The reserved
operand bits of the encoding are not part of a command: a word in which they are not zero is no command (R72, R73). -/
inductive Instr where
  /-- 40_session_init.md R90. -/
  | nop
  /-- 40_session_init.md R91; `seed = ARG[31:0]`. -/
  | startz (seed : Word)
  /-- 40_session_init.md R92; `seed = ARG[31:0]`. -/
  | startn (seed : Word)
  /-- 41_scan_frontend.md R104; `byte = ARG[7:0]`. -/
  | pushb (byte : Byte)
  /-- 41_scan_frontend.md R105; four key bytes, `ARG[7:0]` the earliest. -/
  | pushw (word : Word)
  /-- 44_finalize.md R164. -/
  | finish
  /-- 45_result_status.md R176. -/
  | read
  /-- 45_result_status.md R177. -/
  | status
  /-- 40_session_init.md R93. -/
  | clear
  deriving DecidableEq, Repr

/-- The three exceptions of the block, all of them command rejections (60_exceptions.md R190). -/
inductive Reject where
  /-- The opcode is reserved (R191). -/
  | eOp
  /-- Reserved operand bits are not zero (R192). -/
  | eArg
  /-- The command is not allowed in the current phase (R193). -/
  | eSeq
  deriving DecidableEq, Repr

end Sys2Proof
end

