-- ==== Sys2Proof/WellFormed.lean ====
section
/-! DEFINITION. Which commands exist on an instance of the block. Every operand of every constructor is legal
(30_encoding.md R68: the operand fields are used whole), so the one check is the build parameter's. -/

namespace Sys2Proof

/-- `STARTZ` exists only where the `null_scan_frontend` is built (41_scan_frontend.md R108); every other command exists
on every instance (30_encoding.md R67). -/
def Instr.wellFormed (hasScan : Bool) : Instr → Bool
  | .nop => true
  | .startz _ => hasScan
  | .startn _ => true
  | .pushb _ => true
  | .pushw _ => true
  | .finish => true
  | .read => true
  | .status => true
  | .clear => true

end Sys2Proof
end

