-- ==== Sys2Proof/Decode.lean ====
section
/-! DEFINITION. The decoder of 36-bit command words (30_encoding.md R65 to R75), total on every word, and the encoder.
A command word is a single value, not a sequence of bytes (R65), so there is no byte order to choose here. -/

namespace Sys2Proof

/-- `OP`, bits 35:32 of a command word (30_encoding.md R65). -/
def opOf (w : CmdWord) : BitVec 4 := w.extractLsb' 32 4

/-- `ARG`, bits 31:0 of a command word (30_encoding.md R65). -/
def argOf (w : CmdWord) : Word := w.extractLsb' 0 32

/-- The command word with the given fields, `(OP << 32) | ARG` (30_encoding.md R65, R76). -/
def cmdWord (op : BitVec 4) (arg : Word) : CmdWord := op ++ arg

/-- The reserved opcodes: 0x9 to 0xF, and 0x1 where the frontend is not built (30_encoding.md R71). -/
def reservedOp (hasScan : Bool) (op : BitVec 4) : Bool :=
  decide (9 ≤ op.toNat) || (op == 0x1#4 && !hasScan)

/-- The reserved operand bits of a defined opcode are not all zero (30_encoding.md R72). -/
def reservedArgSet (op : BitVec 4) (arg : Word) : Bool :=
  match op.toNat with
  | 0 | 5 | 6 | 7 | 8 => arg != 0#32
  | 3 => arg.extractLsb' 8 24 != 0#24
  | _ => false

/-- Steps 1 and 2 of decoding and the choice of the command, in the spec's fixed order (30_encoding.md R75). It reads no
state but the build parameter `HAS_SCAN`; the phase check, step 3, is in the commands' meanings. -/
def decode (hasScan : Bool) (w : CmdWord) : Except Reject Instr :=
  let op := opOf w
  let arg := argOf w
  if reservedOp hasScan op then .error .eOp
  else if reservedArgSet op arg then .error .eArg
  else
    match op.toNat with
    | 0 => .ok .nop
    | 1 => .ok (.startz arg)
    | 2 => .ok (.startn arg)
    | 3 => .ok (.pushb (arg.extractLsb' 0 8))
    | 4 => .ok (.pushw arg)
    | 5 => .ok .finish
    | 6 => .ok .read
    | 7 => .ok .status
    | 8 => .ok .clear
    | _ => .error .eOp

/-- The opcode of a command (30_encoding.md R67). -/
def Instr.opcode : Instr → BitVec 4
  | .nop => 0x0#4
  | .startz _ => 0x1#4
  | .startn _ => 0x2#4
  | .pushb _ => 0x3#4
  | .pushw _ => 0x4#4
  | .finish => 0x5#4
  | .read => 0x6#4
  | .status => 0x7#4
  | .clear => 0x8#4

/-- The operand word of a command, its reserved bits zero (30_encoding.md R67, R68). -/
def Instr.operand : Instr → Word
  | .nop => 0#32
  | .startz seed => seed
  | .startn seed => seed
  | .pushb byte => byte.setWidth 32
  | .pushw word => word
  | .finish => 0#32
  | .read => 0#32
  | .status => 0#32
  | .clear => 0#32

/-- The command word of a command (30_encoding.md R67). -/
def encode (i : Instr) : CmdWord := cmdWord i.opcode i.operand

/-- One row of the opcode map (30_encoding.md R67): a command word `w` selects the row when `w & mask = value`. -/
structure OpRow where
  mnemonic : String
  value : CmdWord
  mask : CmdWord
  deriving DecidableEq, Repr

/-- The opcode map, complete (30_encoding.md R67). The decoder does not use it: it is the spec's own table of `match` and
`mask` values, for statements that the decoder agrees with it. -/
def opcodeMap : List OpRow :=
  [ ⟨"NOP",    0x000000000#36, 0xfffffffff#36⟩,
    ⟨"STARTZ", 0x100000000#36, 0xf00000000#36⟩,
    ⟨"STARTN", 0x200000000#36, 0xf00000000#36⟩,
    ⟨"PUSHB",  0x300000000#36, 0xfffffff00#36⟩,
    ⟨"PUSHW",  0x400000000#36, 0xf00000000#36⟩,
    ⟨"FINISH", 0x500000000#36, 0xfffffffff#36⟩,
    ⟨"READ",   0x600000000#36, 0xfffffffff#36⟩,
    ⟨"STATUS", 0x700000000#36, 0xfffffffff#36⟩,
    ⟨"CLEAR",  0x800000000#36, 0xfffffffff#36⟩ ]

/-- The mnemonic of a command (30_encoding.md R67, R76). -/
def Instr.mnemonic : Instr → String
  | .nop => "NOP"
  | .startz _ => "STARTZ"
  | .startn _ => "STARTN"
  | .pushb _ => "PUSHB"
  | .pushw _ => "PUSHW"
  | .finish => "FINISH"
  | .read => "READ"
  | .status => "STATUS"
  | .clear => "CLEAR"

/-- The number of bits of a command word (30_encoding.md R65, `CMD_W` of 00_scope.md R7). -/
def cmdBits : Nat := 36

/-- The instruction the decoder of the described instance (`HAS_SCAN = 1`) reads from a word of `nbits` bits given as a
number. A number that does not fit in 36 bits is no command word (log 2). -/
def decodeTableWord (nbits w : Nat) : Option Instr :=
  let v := w % 2 ^ nbits
  if v < 2 ^ cmdBits then
    match decode Config.instanceHasScan (BitVec.ofNat 36 v) with
    | .ok i => some i
    | .error _ => none
  else none

end Sys2Proof
end

