-- ==== Sys2Proof/Machine/State.lean ====
section
/-! DEFINITION. The state of the block (10_state.md R20), its ports, the reasons a step can stop, and the state after
reset (10_state.md R36). -/

namespace Sys2Proof.Machine

/-- The document's HashState: the three general registers A, B, C, 32 bits each (10_state.md R21). -/
structure HashState where
  a : Word
  b : Word
  c : Word
  deriving DecidableEq, Repr

/-- Three words on their way into A, B and C: the block words w0, w1, w2 (42_block_mixer.md R120) or the tail words
remA, remB, remC (43_tail_packer.md R140). Computed inside one step, never stored (10_state.md R31). -/
structure Words where
  toA : Word
  toB : Word
  toC : Word
  deriving DecidableEq, Repr

/-- The sequencer phase PH (10_state.md R26). The encoding 3 is no state of the block (93_implementation_defined.md U6),
so the type has no such value (DEDUCED, log 8; safe). -/
inductive Phase where
  | idle
  | absorb
  | done
  deriving DecidableEq, Repr

/-- The contents of the byte buffer BUF: pairs of a lane number and a byte, lane numbers strictly rising, no entry equal
to what an unlisted lane reads as (10_state.md R25, 20_memory.md R45; log 5). -/
abbrev Memory := List Host.Cell

/-- What the host does at the command port: presents a command word (00_scope.md R8, 30_encoding.md R65), or applies
reset (70_reset_and_hazards.md R215, R216). -/
inductive HostEvent where
  | command (w : CmdWord)
  | reset
  deriving DecidableEq, Repr

/-- The state of one instance. The first six fields are the spec's (10_state.md R20); the last four are the model's own,
for what the spec puts outside the block: the build parameter, the two ports, and a counter for free values. -/
structure State where
  /-- A, B, C (10_state.md R21). -/
  regs : HashState
  /-- BUF (10_state.md R25). -/
  buf : Memory
  /-- N, 0 to 11 between commands (10_state.md R25, R35 (i); DEDUCED, log 8; safe). -/
  n : Fin 12
  /-- PH (10_state.md R26). -/
  ph : Phase
  /-- Z (10_state.md R28). -/
  z : Bool
  /-- ERR (10_state.md R29). -/
  err : BitVec 2
  /-- HAS_SCAN, never written (00_scope.md R7, 41_scan_frontend.md R108; DESIGN CHOICE, log 1; safe). -/
  hasScan : Bool
  /-- What the host presents, the next event first (00_scope.md R9; DESIGN CHOICE, log 2; safe). -/
  host : List HostEvent
  /-- The response to the last completed command, none when no response is owed (30_encoding.md R66,
  70_reset_and_hazards.md R215; DESIGN CHOICE, log 3; safe). -/
  rsp : Option RspWord
  /-- How many resets the running block has taken: it numbers the free values of such a reset (DESIGN CHOICE, log 6;
  safe). -/
  resets : Nat
  deriving DecidableEq, Repr

/-- Why the machine stops with a fault: never. The only exceptions of the block are rejected commands, after which it goes
on (60_exceptions.md R190, R195), and its datapath raises nothing (R198), so the type has no constructor. Safe. -/
inductive Fault where
  deriving DecidableEq, Repr

/-- Why a step has no meaning. -/
inductive Refusal where
  /-- Raised by an arm of `exec` for a command that has no meaning yet. No arm answers it: all nine commands are modelled.
  Safe: the machine stops where the hardware would go on. -/
  | notModelled (mnemonic : String)
  deriving DecidableEq, Repr

/-- The block right after reset (10_state.md R36, R37): PH, N, Z and ERR as the spec states; A, B, C zero (DESIGN CHOICE,
log 4; unsafe) and BUF with nothing listed (DESIGN CHOICE, log 5; unsafe), where the spec gives no value; nothing
presented by the host and no response owed (R215). -/
def State.reset : State where
  regs := ⟨0#32, 0#32, 0#32⟩
  buf := []
  n := 0
  ph := .idle
  z := false
  err := 0#2
  hasScan := Config.instanceHasScan
  host := []
  rsp := none
  resets := 0

end Sys2Proof.Machine
end

