-- ==== Sys2Proof/Machine/Flags.lean ====
section
/-! DEFINITION. The flags and the status word. There are no condition codes (10_state.md R30): the only flags are Z, ERR
and the phase. -/

namespace Sys2Proof.Machine

/-- The 2-bit encoding of PH (10_state.md R26). -/
def Phase.bits : Phase → BitVec 2
  | .idle => 0#2
  | .absorb => 1#2
  | .done => 2#2

/-- The 4-bit code of a rejection, as RSP[35:32] carries it (30_encoding.md R69, 60_exceptions.md R190). -/
def rejectCode : Reject → BitVec 4
  | .eOp => 1#4
  | .eArg => 2#4
  | .eSeq => 3#4

/-- The response code of an accepted command, OK (30_encoding.md R69). -/
def okCode : BitVec 4 := 0#4

/-- The error latch after a rejection with code `r`: the first code since the last clearing is kept (60_exceptions.md
R196). -/
def latchError (err : BitVec 2) (r : Reject) : BitVec 2 :=
  if err = 0#2 then (rejectCode r).setWidth 2 else err

/-- The status word SW, 22 zero bits, ERR, N, a zero bit, Z, PH (10_state.md R32). -/
def statusWord (s : State) : Word :=
  0#22 ++ s.err ++ BitVec.ofNat 4 s.n.val ++ 0#1 ++ BitVec.ofBool s.z ++ s.ph.bits

/-- The level output `done` (60_exceptions.md R199). -/
def doneLine (s : State) : Bool := s.ph = .done

/-- Micro-operation SCAN: the byte ends the message (41_scan_frontend.md R100). -/
def scan (byte : Byte) (s : State) : Bool := s.z && byte == 0x00#8

end Sys2Proof.Machine
end

