-- ==== Sys2Proof/Machine/Operands.lean ====
section
/-! DEFINITION. Operand assembly (30_encoding.md R68), byte order and widening (20_memory.md R47 to R49), and the rotation
(42_block_mixer.md R118). Addition, subtraction and exclusive-or are those of `BitVec 32` (R115 to R117). -/

namespace Sys2Proof.Machine

/-- `zext_32` of a byte (00_scope.md R11, 20_memory.md R49). -/
def zext (b : Byte) : Word := b.setWidth 32

/-- `byte_j = ARG[8*j + 7 : 8*j]` of a four-byte operand (30_encoding.md R68). -/
def byteOf (word : Word) (j : Nat) : Byte := word.extractLsb' (8 * j) 8

/-- The key bytes a PUSHW operand carries, earliest first (20_memory.md R48, 41_scan_frontend.md R105). -/
def wordBytes (word : Word) : List Byte :=
  [byteOf word 0, byteOf word 1, byteOf word 2, byteOf word 3]

/-- Four bytes as a little-endian word, the first at bits 7:0 (42_block_mixer.md R120, 45_result_status.md R178). -/
def le32 (p0 p1 p2 p3 : Byte) : Word :=
  zext p0 ||| (zext p1 <<< 8) ||| (zext p2 <<< 16) ||| (zext p3 <<< 24)

/-- `rot(x, k)`: bit `i` of `x` becomes bit `(i + k) mod 32` (42_block_mixer.md R118); total, with `rot(x, 0) = x`. -/
def rot (x : Word) (k : Nat) : Word := x.rotateLeft k

end Sys2Proof.Machine
end

