-- ==== Sys2Proof/Machine/Ops.lean ====
section
/-! DEFINITION. The shared operations: the byte buffer (20_memory.md R45, R46), responding, taking an exception, the
reset, and the phase check of the commands of a message. -/

namespace Sys2Proof.Machine

/-- The byte of lane `k` in a buffer's contents. -/
def Memory.read (m : Memory) (k : Nat) : Byte :=
  match m with
  | [] => Config.unwrittenLane
  | c :: rest => if c.1 = k then c.2 else Memory.read rest k

/-- Put an entry before the first one of a higher lane. -/
def Memory.insert (k : Nat) (v : Byte) : Memory → Memory
  | [] => [(k, v)]
  | c :: rest => if k < c.1 then (k, v) :: c :: rest else c :: Memory.insert k v rest

/-- Set lane `k` to `v` and change no other lane (20_memory.md R46). The canonical form is kept: the value an unlisted
lane reads as is stored by listing nothing. -/
def Memory.write (m : Memory) (k : Nat) (v : Byte) : Memory :=
  let rest := m.filter fun c => c.1 ≠ k
  if v = Config.unwrittenLane then rest else Memory.insert k v rest

/-- Lane numbers strictly rise from `low` on and stay below 12, and no entry holds the value an unlisted lane reads as. -/
def Memory.wfFrom (low : Nat) : Memory → Bool
  | [] => true
  | c :: rest => decide (low ≤ c.1) && decide (c.1 < 12) && c.2 != Config.unwrittenLane && Memory.wfFrom (c.1 + 1) rest

/-- The one canonical form of the buffer's contents; BUF has the addresses 0 to 11 (20_memory.md R45). -/
def Memory.wf (m : Memory) : Bool := Memory.wfFrom 0 m

/-- `MemRead(k, 1)` (20_memory.md R46). An index outside 0 to 11 cannot arise. -/
def memRead (k : Fin 12) (s : State) : Byte := Memory.read s.buf k.val

/-- `MemWrite(k, 1, v)` (20_memory.md R46). -/
def memWrite (k : Fin 12) (v : Byte) (s : State) : State := { s with buf := Memory.write s.buf k.val v }

/-- A response word, CODE in bits 35:32 and DATA in bits 31:0 (30_encoding.md R66). -/
def rspWord (code : BitVec 4) (data : Word) : RspWord := code ++ data

/-- `respond DATA`: the command ends with the response OK and `data` (00_scope.md R12). -/
def respond (data : Word) (s : State) : State := { s with rsp := some (rspWord okCode data) }

/-- Taking an exception, `reject CODE`: nothing changes but the error latch, and the response is the code with zero data
(00_scope.md R12, 60_exceptions.md R195, R196). There is no vector, no saved state and nothing to return from (R195,
R197): the next command is the host's. -/
def reject (r : Reject) (s : State) : State :=
  { s with err := latchError s.err r, rsp := some (rspWord (rejectCode r) 0#32) }

/-- The phase check shared by PUSHB, PUSHW and FINISH (41_scan_frontend.md R104 to R107, 44_finalize.md R164,
60_exceptions.md R193): rejected in IDLE and in DONE of an N-mode message, ignored in DONE of a Z-mode message, and in
ABSORB `effect`, then the response. -/
def inMessage (effect : State → State) (s : State) : State :=
  match s.ph, s.z with
  | .idle, _ => reject .eSeq s
  | .done, false => reject .eSeq s
  | .done, true => respond 0#32 s
  | .absorb, _ => respond 0#32 (effect s)

/-- BUF after the `k`-th reset of the running block: every lane holds a free value (log 6). -/
def residueBuf (k : Nat) : Memory :=
  (List.range 12).foldl (fun m lane => Memory.write m lane (Config.residueByte k lane)) []

/-- Reset applied to the running block (70_reset_and_hazards.md R215, R216): the control state is that of 10_state.md R36;
A, B, C and BUF become unspecified, here free values (log 6; safe); no response is owed. The build parameter and what
the host presents are not the block's to change. -/
def applyReset (s : State) : State :=
  { s with
    regs := ⟨Config.residueWord s.resets 0, Config.residueWord s.resets 1, Config.residueWord s.resets 2⟩
    buf := residueBuf s.resets
    n := 0
    ph := .idle
    z := false
    err := 0#2
    rsp := none
    resets := s.resets + 1 }

end Sys2Proof.Machine
end

