-- ==== Sys2Proof/Machine/Tail.lean ====
section
/-! DEFINITION. The tail phase, sub-block `tail_byte_packer` (43_tail_packer.md): micro-operations TPACK, TADD, TAIL. -/

namespace Sys2Proof.Machine

/-- Micro-operation TPACK: every condition that holds contributes, from the highest byte down (43_tail_packer.md R140);
the accumulators start at zero (R145), and `byte k` is the k-th byte of the tail (R144). -/
def tpack (r : Nat) (byte : Fin 12 → Byte) : Words :=
  let rem : Words := ⟨0#32, 0#32, 0#32⟩
  let rem := if 11 ≤ r then { rem with toC := rem.toC + (zext (byte 10) <<< 16) } else rem
  let rem := if 10 ≤ r then { rem with toC := rem.toC + (zext (byte 9) <<< 8) } else rem
  let rem := if 9 ≤ r then { rem with toC := rem.toC + zext (byte 8) } else rem
  let rem := if 8 ≤ r then { rem with toB := rem.toB + (zext (byte 7) <<< 24) } else rem
  let rem := if 7 ≤ r then { rem with toB := rem.toB + (zext (byte 6) <<< 16) } else rem
  let rem := if 6 ≤ r then { rem with toB := rem.toB + (zext (byte 5) <<< 8) } else rem
  let rem := if 5 ≤ r then { rem with toB := rem.toB + zext (byte 4) } else rem
  let rem := if 4 ≤ r then { rem with toA := rem.toA + (zext (byte 3) <<< 24) } else rem
  let rem := if 3 ≤ r then { rem with toA := rem.toA + (zext (byte 2) <<< 16) } else rem
  let rem := if 2 ≤ r then { rem with toA := rem.toA + (zext (byte 1) <<< 8) } else rem
  let rem := if 1 ≤ r then { rem with toA := rem.toA + zext (byte 0) } else rem
  rem

/-- Micro-operation TADD (43_tail_packer.md R142). -/
def tadd (rem : Words) (h : HashState) : HashState where
  a := h.a + rem.toA
  b := h.b + rem.toB
  c := h.c + rem.toC

/-- TAIL: with no byte left the registers are not touched, else TPACK; TADD; then N is 0 (43_tail_packer.md R143). -/
def tail (s : State) : State :=
  let r := s.n.val
  let s := if 1 ≤ r then { s with regs := tadd (tpack r fun k => memRead k s) s.regs } else s
  { s with n := 0 }

end Sys2Proof.Machine
end

