-- ==== Sys2Proof/Machine/Finalize.lean ====
section
/-! DEFINITION. The finalization, sub-block `avalanche_finalize` (44_finalize.md): micro-operations FIN1 to FIN7, FINAL,
END, and the command FINISH. -/

namespace Sys2Proof.Machine

/-- FIN1, `c ^= b; c -= rot(b,14)` (44_finalize.md R155). -/
def fin1 (h : HashState) : HashState :=
  let h := { h with c := h.c ^^^ h.b }
  { h with c := h.c - rot h.b 14 }

/-- FIN2, `a ^= c; a -= rot(c,11)` (44_finalize.md R156). -/
def fin2 (h : HashState) : HashState :=
  let h := { h with a := h.a ^^^ h.c }
  { h with a := h.a - rot h.c 11 }

/-- FIN3, `b ^= a; b -= rot(a,25)` (44_finalize.md R157). -/
def fin3 (h : HashState) : HashState :=
  let h := { h with b := h.b ^^^ h.a }
  { h with b := h.b - rot h.a 25 }

/-- FIN4, `c ^= b; c -= rot(b,16)` (44_finalize.md R158). -/
def fin4 (h : HashState) : HashState :=
  let h := { h with c := h.c ^^^ h.b }
  { h with c := h.c - rot h.b 16 }

/-- FIN5, `a ^= c; a -= rot(c,4)` (44_finalize.md R159). -/
def fin5 (h : HashState) : HashState :=
  let h := { h with a := h.a ^^^ h.c }
  { h with a := h.a - rot h.c 4 }

/-- FIN6, `b ^= a; b -= rot(a,14)` (44_finalize.md R160). -/
def fin6 (h : HashState) : HashState :=
  let h := { h with b := h.b ^^^ h.a }
  { h with b := h.b - rot h.a 14 }

/-- FIN7, `c ^= b; c -= rot(b,24)` (44_finalize.md R161). -/
def fin7 (h : HashState) : HashState :=
  let h := { h with c := h.c ^^^ h.b }
  { h with c := h.c - rot h.b 24 }

/-- FINAL: the seven lines in order (44_finalize.md R162). -/
def final (h : HashState) : HashState := fin7 (fin6 (fin5 (fin4 (fin3 (fin2 (fin1 h))))))

/-- END: TAIL; FINAL; the phase becomes DONE (44_finalize.md R165). -/
def endMessage (s : State) : State :=
  let s := tail s
  let s := { s with regs := final s.regs }
  { s with ph := .done }

/-- FINISH (44_finalize.md R164). -/
def execFinish (s : State) : Host.Outcome State Fault Refusal := .next (inMessage endMessage s)

end Sys2Proof.Machine
end

