-- ==== Sys2Proof/Machine/Mixer.lean ====
section
/-! DEFINITION. The block phase, sub-block `jenkins_lookup3_mixer` proper (42_block_mixer.md): micro-operations BPACK,
ABSORB, MIX1 to MIX6, MIX, BLOCK. Statements are written one per line in the spec's order (R119). -/

namespace Sys2Proof.Machine

/-- Micro-operation BPACK: the three words of a full block (42_block_mixer.md R120). -/
def bpack (s : State) : Words where
  toA := le32 (memRead 0 s) (memRead 1 s) (memRead 2 s) (memRead 3 s)
  toB := le32 (memRead 4 s) (memRead 5 s) (memRead 6 s) (memRead 7 s)
  toC := le32 (memRead 8 s) (memRead 9 s) (memRead 10 s) (memRead 11 s)

/-- Micro-operation ABSORB (42_block_mixer.md R121). -/
def absorb (w : Words) (h : HashState) : HashState where
  a := h.a + w.toA
  b := h.b + w.toB
  c := h.c + w.toC

/-- MIX1, `a -= c; a ^= rot(c,4); c += b` (42_block_mixer.md R122). -/
def mix1 (h : HashState) : HashState :=
  let h := { h with a := h.a - h.c }
  let h := { h with a := h.a ^^^ rot h.c 4 }
  { h with c := h.c + h.b }

/-- MIX2, `b -= a; b ^= rot(a,6); a += c` (42_block_mixer.md R123). -/
def mix2 (h : HashState) : HashState :=
  let h := { h with b := h.b - h.a }
  let h := { h with b := h.b ^^^ rot h.a 6 }
  { h with a := h.a + h.c }

/-- MIX3, `c -= b; c ^= rot(b,8); b += a` (42_block_mixer.md R124). -/
def mix3 (h : HashState) : HashState :=
  let h := { h with c := h.c - h.b }
  let h := { h with c := h.c ^^^ rot h.b 8 }
  { h with b := h.b + h.a }

/-- MIX4, `a -= c; a ^= rot(c,16); c += b` (42_block_mixer.md R125). -/
def mix4 (h : HashState) : HashState :=
  let h := { h with a := h.a - h.c }
  let h := { h with a := h.a ^^^ rot h.c 16 }
  { h with c := h.c + h.b }

/-- MIX5, `b -= a; b ^= rot(a,19); a += c` (42_block_mixer.md R126). -/
def mix5 (h : HashState) : HashState :=
  let h := { h with b := h.b - h.a }
  let h := { h with b := h.b ^^^ rot h.a 19 }
  { h with a := h.a + h.c }

/-- MIX6, `c -= b; c ^= rot(b,4); b += a` (42_block_mixer.md R127). -/
def mix6 (h : HashState) : HashState :=
  let h := { h with c := h.c - h.b }
  let h := { h with c := h.c ^^^ rot h.b 4 }
  { h with b := h.b + h.a }

/-- MIX: the six lines in order (42_block_mixer.md R128). -/
def mix (h : HashState) : HashState := mix6 (mix5 (mix4 (mix3 (mix2 (mix1 h)))))

/-- BLOCK: BPACK; ABSORB; MIX (42_block_mixer.md R129). The caller sets N to 0. -/
def block (s : State) : State := { s with regs := mix (absorb (bpack s) s.regs) }

end Sys2Proof.Machine
end

