-- ==== Sys2Proof/Machine/Delivery.lean ====
section
/-! DEFINITION. Key delivery (41_scan_frontend.md): micro-operations BUFW and PUSHBYTE; PUSHB, PUSHW. -/

namespace Sys2Proof.Machine

/-- Micro-operation BUFW (41_scan_frontend.md R102): the byte goes to lane N, and the count, which may now be 12, is
answered beside the state; the caller stores it. -/
def bufw (byte : Byte) (s : State) : State × Fin 13 := (memWrite s.n byte s, s.n.succ)

/-- PUSHBYTE: deliver one byte to the computation (41_scan_frontend.md R103); its precondition is the phase ABSORB. -/
def pushByte (byte : Byte) (s : State) : State :=
  if scan byte s then endMessage s
  else
    let written := bufw byte s
    if full : written.2.val = 12 then { block written.1 with n := 0 }
    else { written.1 with n := ⟨written.2.val, by omega⟩ }

/-- The bytes of one PUSHW in order, stopping when the phase leaves ABSORB (41_scan_frontend.md R105). -/
def pushBytes (bytes : List Byte) (s : State) : State :=
  bytes.foldl (fun s byte => if s.ph = .absorb then pushByte byte s else s) s

/-- PUSHB (41_scan_frontend.md R104). -/
def execPushb (byte : Byte) (s : State) : Host.Outcome State Fault Refusal :=
  .next (inMessage (pushByte byte) s)

/-- PUSHW (41_scan_frontend.md R105). -/
def execPushw (word : Word) (s : State) : Host.Outcome State Fault Refusal :=
  .next (inMessage (pushBytes (wordBytes word)) s)

end Sys2Proof.Machine
end

