-- ==== Sys2Proof/Machine/Result.lean ====
section
/-! DEFINITION. Result and status (45_result_status.md): micro-operation RET; READ, STATUS. -/

namespace Sys2Proof.Machine

/-- Micro-operation RET: all 32 bits of C, unchanged (45_result_status.md R175). -/
def ret (s : State) : Word := s.regs.c

/-- READ (45_result_status.md R176). -/
def execRead (s : State) : Host.Outcome State Fault Refusal :=
  if s.ph = .done then .next (respond (ret s) s) else .next (reject .eSeq s)

/-- STATUS (45_result_status.md R177): the word reports the state before the command. -/
def execStatus (s : State) : Host.Outcome State Fault Refusal := .next (respond (statusWord s) s)

end Sys2Proof.Machine
end

