-- ==== Sys2Proof/Machine/Session.lean ====
section
/-! DEFINITION. Session commands and initialisation (40_session_init.md): micro-operation INIT; NOP, STARTZ, STARTN,
CLEAR. -/

namespace Sys2Proof.Machine

/-- The initial constant GOLDEN (00_scope.md R6). -/
def golden : Word := 0x9e3779b9#32

/-- The general registers at the start of a message (40_session_init.md R94). -/
def initRegs (seed : Word) : HashState := ⟨golden, golden, seed⟩

/-- Micro-operation INIT (40_session_init.md R94); the lanes of BUF are not cleared. -/
def init (seed : Word) (s : State) : State := { s with regs := initRegs seed, n := 0 }

/-- The common effect of STARTZ and STARTN (40_session_init.md R91, R92). -/
def startMessage (z : Bool) (seed : Word) (s : State) : State :=
  respond 0#32 { init seed s with z := z, ph := .absorb }

/-- NOP (40_session_init.md R90). -/
def execNop (s : State) : Host.Outcome State Fault Refusal := .next (respond 0#32 s)

/-- STARTZ (40_session_init.md R91); a reserved opcode where the frontend is not built (41_scan_frontend.md R108). -/
def execStartz (seed : Word) (s : State) : Host.Outcome State Fault Refusal :=
  if s.hasScan then .next (startMessage true seed s) else .next (reject .eOp s)

/-- STARTN (40_session_init.md R92). -/
def execStartn (seed : Word) (s : State) : Host.Outcome State Fault Refusal :=
  .next (startMessage false seed s)

/-- CLEAR (40_session_init.md R93): the control state to its reset values; A, B, C and BUF are not written. -/
def execClear (s : State) : Host.Outcome State Fault Refusal :=
  .next (respond 0#32 { s with ph := .idle, n := 0, z := false, err := 0#2 })

end Sys2Proof.Machine
end

