-- ==== Sys2Proof/Machine/Dispatch.lean ====
section
/-! DEFINITION. The meaning of every command, one arm per constructor of Instr. -/

namespace Sys2Proof.Machine

def exec (i : Instr) (s : State) : Host.Outcome State Fault Refusal :=
  match i with
  | .nop => Sys2Proof.Machine.execNop s
  | .startz seed => Sys2Proof.Machine.execStartz seed s
  | .startn seed => Sys2Proof.Machine.execStartn seed s
  | .pushb byte => Sys2Proof.Machine.execPushb byte s
  | .pushw word => Sys2Proof.Machine.execPushw word s
  | .finish => Sys2Proof.Machine.execFinish s
  | .read => Sys2Proof.Machine.execRead s
  | .status => Sys2Proof.Machine.execStatus s
  | .clear => Sys2Proof.Machine.execClear s

end Sys2Proof.Machine
end

