-- ==== Sys2Proof/Machine/Accept.lean ====
section
/-! DEFINITION. Accepting what the host presents: one event, its effect, and the word of a table row as an event. -/

namespace Sys2Proof.Machine

/-- The state in which the host has handed over its next event. -/
def takeEvent (s : State) : State := { s with host := s.host.tail }

/-- The block accepts a command word (00_scope.md R8): steps 1 and 2 of decoding, which may reject it, then the command
(30_encoding.md R75). -/
def acceptCommand (w : CmdWord) (s : State) : Host.Outcome State Fault Refusal :=
  match decode s.hasScan w with
  | .ok i => exec i s
  | .error r => .next (reject r s)

/-- The block takes one event of the host: a command word, or reset in place of a command (70_reset_and_hazards.md
R216). -/
def acceptEvent (e : HostEvent) (s : State) : Host.Outcome State Fault Refusal :=
  match e with
  | .command w => acceptCommand w s
  | .reset => .next (applyReset s)

/-- One step: the next event the host presents. With none presented the block is idle and nothing changes (00_scope.md
R9, 70_reset_and_hazards.md R223; DEDUCED, log 7; safe). -/
def stepEvent (s : State) : Host.Outcome State Fault Refusal :=
  match s.host with
  | [] => .next s
  | e :: _ => acceptEvent e (takeEvent s)

/-- The host presents the word of a table row next, before whatever else it presents (log 2). -/
def presentTableWord (s : State) (nbits w : Nat) : State :=
  { s with host := .command (BitVec.ofNat 36 (w % 2 ^ nbits)) :: s.host }

end Sys2Proof.Machine
end

