-- ==== Sys2Proof/Machine/Step.lean ====
section
/-! DEFINITION. One step of the machine (00_scope.md R8): one event of the host, executed whole. -/

namespace Sys2Proof.Machine

/-- One indivisible step (00_scope.md R8, R9). -/
def step (s : State) : Host.Outcome State Fault Refusal := stepEvent s

/-- `s` with the given table word presented next by the host (log 2). -/
def State.withFetchWord (s : State) (nbits w : Nat) : State := presentTableWord s nbits w

end Sys2Proof.Machine
end

