-- ==== Sys2Proof/Machine/Hash.lean ====
section
/-! DEFINITION. What a whole message computes (41_scan_frontend.md R101, 45_result_status.md R178): the functions efflen,
HASH and hash32. No command calls them: they are what messages are compared with (R179, R180). -/

namespace Sys2Proof.Machine

/-- The least index of a zero byte, or the length where there is none (41_scan_frontend.md R101). -/
def efflen : List Byte → Nat
  | [] => 0
  | b :: rest => if b = 0x00#8 then 0 else efflen rest + 1

/-- The loop of HASH: absorb twelve bytes and mix while at least twelve remain; the registers after it, and the bytes
left (45_result_status.md R178, 42_block_mixer.md R130). -/
def hashBlocks : HashState → List Byte → HashState × List Byte
  | h, k0 :: k1 :: k2 :: k3 :: k4 :: k5 :: k6 :: k7 :: k8 :: k9 :: k10 :: k11 :: rest =>
    hashBlocks (mix (absorb ⟨le32 k0 k1 k2 k3, le32 k4 k5 k6 k7, le32 k8 k9 k10 k11⟩ h)) rest
  | h, left => (h, left)

/-- The tail of HASH: with no byte left nothing is added, else TPACK and the three additions (45_result_status.md
R178). -/
def hashTail (h : HashState) (left : List Byte) : HashState :=
  if 1 ≤ left.length then tadd (tpack left.length fun k => left.getD k.val 0x00#8) h else h

/-- `HASH(key, seed)` (45_result_status.md R178). -/
def hashOf (key : List Byte) (seed : Word) : Word :=
  let looped := hashBlocks (initRegs seed) key
  (final (hashTail looped.1 looped.2)).c

/-- The document's `hash32(buffer, seed)`: HASH of the bytes before the first zero byte (45_result_status.md R178). -/
def hash32 (buffer : List Byte) (seed : Word) : Word := hashOf (buffer.take (efflen buffer)) seed

end Sys2Proof.Machine
end

