-- ==== Sys2Proof/Machine/Text.lean ====
section
/-! DEFINITION. The text syntax of commands and the pseudo-commands (30_encoding.md R76, R77): a line of text becomes the
command words it stands for. What R76 leaves open is fixed as log 9 says (DESIGN CHOICE; safe: no step reads text). -/

namespace Sys2Proof.Machine

/-- `PUSHS "text"`: one PUSHB per character, in order (30_encoding.md R77). -/
def pushs (text : List Byte) : List Instr := text.map .pushb

/-- `HASHZ "text", seed` (30_encoding.md R77). -/
def hashz (text : List Byte) (seed : Word) : List Instr := .startz seed :: pushs text ++ [.pushb 0x00#8, .read]

/-- `HASHN "text", seed` (30_encoding.md R77). -/
def hashn (text : List Byte) (seed : Word) : List Instr := .startn seed :: pushs text ++ [.finish, .read]

/-- The double quote character. -/
def quoteChar : Char := Char.ofNat 34

/-- The line without its comment, which starts at a `;` outside quotes and runs to the end of the line (30_encoding.md
R76; log 9). -/
def withoutComment (quoted : Bool) : List Char → List Char
  | [] => []
  | c :: rest =>
    if c = ';' ∧ quoted = false then []
    else c :: withoutComment (if c = quoteChar then !quoted else quoted) rest

/-- The line without the spaces at its end (log 9). -/
def withoutTrailing (line : List Char) : List Char := (line.reverse.dropWhile (· == ' ')).reverse

/-- The value of a digit in base 16, where the character is one. -/
def digitValue (c : Char) : Option Nat :=
  let k := c.toNat
  if 48 ≤ k ∧ k ≤ 57 then some (k - 48)
  else if 97 ≤ k ∧ k ≤ 102 then some (k - 87)
  else if 65 ≤ k ∧ k ≤ 70 then some (k - 55)
  else none

/-- The value of a run of digits read after the value `sofar`. -/
def digitsValue (base sofar : Nat) : List Char → Option Nat
  | [] => some sofar
  | c :: rest =>
    match digitValue c with
    | some d => if d < base then digitsValue base (sofar * base + d) rest else none
    | none => none

/-- A C-style number, `0x` and hexadecimal digits, or decimal digits (30_encoding.md R76). -/
def numberValue : List Char → Option Nat
  | [] => none
  | ['0', 'x'] => none
  | '0' :: 'x' :: digits => digitsValue 16 0 digits
  | digits => digitsValue 10 0 digits

/-- One space and a number below `2 ^ bits`. -/
def operandValue (bits : Nat) : List Char → Option Nat
  | ' ' :: number =>
    match numberValue number with
    | some v => if v < 2 ^ bits then some v else none
    | none => none
  | _ => none

/-- The 8-bit codes of a text's characters (30_encoding.md R77). -/
def textBytes : List Char → Option (List Byte)
  | [] => some []
  | c :: rest =>
    if c.toNat < 256 then (textBytes rest).map (BitVec.ofNat 8 c.toNat :: ·) else none

/-- One space and a quoted text: the bytes of the text, and what follows the closing quote. -/
def quotedText : List Char → Option (List Byte × List Char)
  | ' ' :: q :: rest =>
    if q = quoteChar then
      match rest.dropWhile (· != quoteChar) with
      | [] => none
      | _ :: after => (textBytes (rest.takeWhile (· != quoteChar))).map (·, after)
    else none
  | _ => none

/-- A command with no operand: it stands alone (30_encoding.md R76). -/
def aloneLine (i : Instr) (rest : List Char) : Option (List CmdWord) :=
  if rest = [] then some [encode i] else none

/-- A command with an operand of `bits` bits (30_encoding.md R76). -/
def operandLine (bits : Nat) (i : Nat → Instr) (rest : List Char) : Option (List CmdWord) :=
  (operandValue bits rest).map fun v => [encode (i v)]

/-- A pseudo-command with a quoted text, a comma and a seed (30_encoding.md R77). -/
def hashLine (program : List Byte → Word → List Instr) (rest : List Char) : Option (List CmdWord) :=
  match quotedText rest with
  | some (text, ',' :: number) =>
    (operandValue 32 number).map fun seed => (program text (BitVec.ofNat 32 seed)).map encode
  | _ => none

/-- The command words of one line of text; a line with nothing but a comment has none (30_encoding.md R76, R77). -/
def assembleLine (line : List Char) : Option (List CmdWord) :=
  let body := withoutTrailing (withoutComment false line)
  let head := body.takeWhile (· != ' ')
  let rest := body.dropWhile (· != ' ')
  if body = [] then some []
  else if head = "NOP".toList then aloneLine .nop rest
  else if head = "STARTZ".toList then operandLine 32 (fun v => .startz (BitVec.ofNat 32 v)) rest
  else if head = "STARTN".toList then operandLine 32 (fun v => .startn (BitVec.ofNat 32 v)) rest
  else if head = "PUSHB".toList then operandLine 8 (fun v => .pushb (BitVec.ofNat 8 v)) rest
  else if head = "PUSHW".toList then operandLine 32 (fun v => .pushw (BitVec.ofNat 32 v)) rest
  else if head = "FINISH".toList then aloneLine .finish rest
  else if head = "READ".toList then aloneLine .read rest
  else if head = "STATUS".toList then aloneLine .status rest
  else if head = "CLEAR".toList then aloneLine .clear rest
  else if head = ".cmd".toList then (operandValue 36 rest).map fun v => [BitVec.ofNat 36 v]
  else if head = "PUSHS".toList then
    match quotedText rest with
    | some (text, []) => some ((pushs text).map encode)
    | _ => none
  else if head = "HASHZ".toList then hashLine hashz rest
  else if head = "HASHN".toList then hashLine hashn rest
  else none

/-- The command words of a program, one command or pseudo-command per line (30_encoding.md R76, R77). -/
def assemble : List (List Char) → Option (List CmdWord)
  | [] => some []
  | line :: lines =>
    match assembleLine line, assemble lines with
    | some words, some more => some (words ++ more)
    | _, _ => none

/-- A digit in base 16, lower case. -/
def hexDigit (d : Nat) : Char := Char.ofNat (if d < 10 then 48 + d else 87 + d)

/-- The `count` lowest hexadecimal digits of a value, the most significant first. -/
def hexDigits : (count v : Nat) → List Char
  | 0, _ => []
  | count + 1, v => hexDigits count (v / 16) ++ [hexDigit (v % 16)]

/-- The text of an operand: one space, `0x` and the digits (30_encoding.md R76). -/
def operandText (count v : Nat) : List Char := ' ' :: '0' :: 'x' :: hexDigits count v

/-- The text of a command (30_encoding.md R76), the operand in hexadecimal as the spec's examples write it. -/
def commandText (i : Instr) : List Char :=
  match i with
  | .startz seed => i.mnemonic.toList ++ operandText 8 seed.toNat
  | .startn seed => i.mnemonic.toList ++ operandText 8 seed.toNat
  | .pushb byte => i.mnemonic.toList ++ operandText 2 byte.toNat
  | .pushw word => i.mnemonic.toList ++ operandText 8 word.toNat
  | .nop => i.mnemonic.toList
  | .finish => i.mnemonic.toList
  | .read => i.mnemonic.toList
  | .status => i.mnemonic.toList
  | .clear => i.mnemonic.toList

end Sys2Proof.Machine
end

