-- ==== Sys2Proof/Safety.lean ====
section
/-! DEFINITION. What claims about runs speak of: the invariants of 10_state.md R35, what an observer can see of a state,
programs presented by the host, and the tables of 10_state.md R27 and 60_exceptions.md R193. -/

namespace Sys2Proof.Machine

/-- What holds between any two commands. The first clause is the model's: BUF is in the canonical form that log 5 chooses
(DESIGN CHOICE). The others are 10_state.md R35: (iii) in IDLE, N and Z are 0;
(iv) in DONE, N is 0; (vi) in ABSORB of a Z-mode message no valid lane holds 0x00; (vii) without the frontend Z is 0.
(i) and (ii) hold by the types of N and PH. -/
abbrev HoldsBetweenCommands (s : State) : Prop :=
  Memory.wf s.buf = true ∧
  (s.ph = .idle → s.n = 0 ∧ s.z = false) ∧
  (s.ph = .done → s.n = 0) ∧
  (s.ph = .absorb → s.z = true → ∀ k : Fin 12, k < s.n → memRead k s ≠ 0x00#8) ∧
  (s.hasScan = false → s.z = false)

/-- Two states that differ only in values no rule reads (10_state.md R24, R25, R36): the registers outside a message, A and
B after it, and the lanes of BUF at N and above. What is compared includes the ports and the control state. -/
def SameSpecified (s t : State) : Prop :=
  s.n = t.n ∧ s.ph = t.ph ∧ s.z = t.z ∧ s.err = t.err ∧ s.hasScan = t.hasScan ∧ s.host = t.host ∧ s.rsp = t.rsp ∧
  (s.ph = .absorb → s.regs = t.regs) ∧
  (s.ph = .done → s.regs.c = t.regs.c) ∧
  ∀ k : Fin 12, k < s.n → memRead k s = memRead k t

/-- CODE, bits 35:32 of a response word (30_encoding.md R66). -/
def codeOf (r : RspWord) : BitVec 4 := r.extractLsb' 32 4

/-- DATA, bits 31:0 of a response word (30_encoding.md R66). -/
def dataOf (r : RspWord) : Word := r.extractLsb' 0 32

/-- The little-endian value of four bytes, the earliest lowest, said as a sum (20_memory.md R47). -/
def leWord (b0 b1 b2 b3 : Byte) : Word :=
  BitVec.ofNat 32 (b0.toNat + 256 * b1.toNat + 65536 * b2.toNat + 16777216 * b3.toNat)

/-- The events of a program of commands. -/
def programEvents (program : List Instr) : List HostEvent := program.map fun i => .command (encode i)

/-- The host presents a program next, in order. -/
def presented (program : List Instr) (s : State) : State := { s with host := programEvents program ++ s.host }

/-- The whole program runs: from `s`, as many steps as it has commands, each a next state, end in `t`. -/
def Runs (program : List Instr) (s t : State) : Prop :=
  Host.Core.run Sys2Proof.core program.length (presented program s) = .next t

/-- The commands that may stand inside a message: pushes, and NOP and STATUS anywhere (45_result_status.md R179). -/
def delivers : Instr → Bool
  | .nop => true
  | .startz _ => false
  | .startn _ => false
  | .pushb _ => true
  | .pushw _ => true
  | .finish => false
  | .read => false
  | .status => true
  | .clear => false

/-- The key bytes a command carries, in order (20_memory.md R56). -/
def carried : Instr → List Byte
  | .pushb byte => [byte]
  | .pushw word => wordBytes word
  | .nop => []
  | .startz _ => []
  | .startn _ => []
  | .finish => []
  | .read => []
  | .status => []
  | .clear => []

/-- The key bytes a list of commands carries, in order (20_memory.md R56). -/
def carriedBy (program : List Instr) : List Byte := program.flatMap carried

/-- The three entries of the table of 60_exceptions.md R193. -/
inductive Legality where
  | ok
  | ignored
  | seq
  deriving DecidableEq, Repr

/-- The table of 60_exceptions.md R193, column by column, for a command the instance has. -/
def legality (i : Instr) (ph : Phase) (z : Bool) : Legality :=
  match i, ph, z with
  | .pushb _, .idle, _ => .seq
  | .pushb _, .absorb, _ => .ok
  | .pushb _, .done, true => .ignored
  | .pushb _, .done, false => .seq
  | .pushw _, .idle, _ => .seq
  | .pushw _, .absorb, _ => .ok
  | .pushw _, .done, true => .ignored
  | .pushw _, .done, false => .seq
  | .finish, .idle, _ => .seq
  | .finish, .absorb, _ => .ok
  | .finish, .done, true => .ignored
  | .finish, .done, false => .seq
  | .read, .idle, _ => .seq
  | .read, .absorb, _ => .seq
  | .read, .done, _ => .ok
  | .nop, _, _ => .ok
  | .startz _, _, _ => .ok
  | .startn _, _, _ => .ok
  | .status, _, _ => .ok
  | .clear, _, _ => .ok

end Sys2Proof.Machine
end

