-- ==== Sys2Proof/Certificates/Slice0/Obligations.lean ====
section
/-! DEFINITION. The statements for the provers, in the order of OBLIGATIONS.json. Throughout, the fields `host` and `rsp` are
the model's form of the block's two ports, what the host presents and the response it has been given (logs 2, 3). -/

open Sys2Proof Sys2Proof.Machine

/-! ## Encoding -/

/-- 30_encoding.md R67, R68, R75: the decoder reads from the word of a command that the instance has exactly that
command, for every value of every operand. -/
def Obligations.DecodeOfEncodeIsTheCommand : Prop :=
  ∀ (hasScan : Bool) (i : Instr), i.wellFormed hasScan = true → decode hasScan (encode i) = .ok i

/-- 30_encoding.md R67, R73, R75: no word is read as a command that is not its own: every bit of a word that decodes is
the bit the command's encoding has there, and the command is one the instance has. -/
def Obligations.DecodedWordIsItsEncoding : Prop :=
  ∀ (hasScan : Bool) (w : CmdWord) (i : Instr),
    decode hasScan w = .ok i → encode i = w ∧ i.wellFormed hasScan = true

/-- 30_encoding.md R67, on the instance with HAS_SCAN = 1: a word selects the row of the opcode map exactly when its bits
under the row's mask are the row's; a word with a row's OP that violates its fixed bits is rejected E_ARG; the OP values
0x9 to 0xF are rejected E_OP; and the command's operand is the word's ARG. -/
def Obligations.OpcodeMapSelectsTheCommand : Prop :=
  ∀ w : CmdWord,
    (∀ row ∈ opcodeMap,
      (w &&& row.mask = row.value ↔ ∃ i, decode true w = .ok i ∧ i.mnemonic = row.mnemonic) ∧
      (opOf w = opOf row.value → w &&& row.mask ≠ row.value → decode true w = .error .eArg)) ∧
    (9 ≤ (opOf w).toNat → decode true w = .error .eOp) ∧
    (∀ i, decode true w = .ok i → i.operand = argOf w)

/-- 30_encoding.md R71 to R73, R75: every word has exactly one outcome of decoding, and which one is decided by the
reserved opcodes first and the reserved operand bits second; decoding never answers E_SEQ. -/
def Obligations.DecodingChecksOpcodeThenOperand : Prop :=
  ∀ (hasScan : Bool) (w : CmdWord),
    let badOp := 9 ≤ (opOf w).toNat ∨ (opOf w = 1#4 ∧ hasScan = false)
    let badArg := (opOf w ∈ [0#4, 5#4, 6#4, 7#4, 8#4] ∧ argOf w ≠ 0#32) ∨
      (opOf w = 3#4 ∧ (argOf w).extractLsb' 8 24 ≠ 0#24)
    (decode hasScan w = .error .eOp ↔ badOp) ∧
    (decode hasScan w = .error .eArg ↔ ¬ badOp ∧ badArg) ∧
    decode hasScan w ≠ .error .eSeq ∧
    ((∃ i, decode hasScan w = .ok i) ↔ ¬ badOp ∧ ¬ badArg)

/-- 95_test_vectors.md sections 4.7 and 5, 30_encoding.md R67: words written out there decode to the commands they stand
for. -/
def Obligations.SpecWordsDecode : Prop :=
  decode true 0x000000000#36 = .ok .nop ∧
  decode true 0x1ffffffff#36 = .ok (.startz 0xffffffff#32) ∧
  decode true 0x2deadbeef#36 = .ok (.startn 0xdeadbeef#32) ∧
  decode true 0x300000048#36 = .ok (.pushb 0x48#8) ∧
  decode true 0x463006261#36 = .ok (.pushw 0x63006261#32) ∧
  decode true 0x500000000#36 = .ok .finish ∧
  decode true 0x600000000#36 = .ok .read ∧
  decode true 0x700000000#36 = .ok .status ∧
  decode true 0x800000000#36 = .ok .clear ∧
  decode true 0xa12345678#36 = .error .eOp ∧
  decode true 0x300000141#36 = .error .eArg ∧
  decode false 0x100000000#36 = .error .eOp

/-- 30_encoding.md R76: the text of every command, mnemonic and hexadecimal operand, assembles to the one word that is the
command's encoding. The number of digits written is the model's choice (log 9). -/
def Obligations.CommandTextAssembles : Prop :=
  ∀ i : Instr, assembleLine (commandText i) = some [encode i]

/-! ## The datapath -/

/-- 42_block_mixer.md R118: bit `i` of `x` becomes bit `(i + k) mod 32` of `rot(x, k)`, for every amount; for amounts 1 to
31 this is the formula with two shifts; `rot(x, 0) = x`. -/
def Obligations.RotationMovesEveryBit : Prop :=
  ∀ (x : Word) (k : Nat),
    (∀ i, i < 32 → (rot x k).getLsbD ((i + k) % 32) = x.getLsbD i) ∧
    (1 ≤ k → k ≤ 31 → rot x k = (x <<< k) ||| (x >>> (32 - k))) ∧
    rot x 0 = x

/-- 42_block_mixer.md R119, R122 to R128: each line of the mix, on any registers, its new values written from the values
at its start as R119 allows, and MIX as the six lines in order. -/
def Obligations.MixLinesAreAsWritten : Prop :=
  ∀ a b c : Word,
    mix1 ⟨a, b, c⟩ = ⟨(a - c) ^^^ rot c 4, b, c + b⟩ ∧
    mix2 ⟨a, b, c⟩ = ⟨a + c, (b - a) ^^^ rot a 6, c⟩ ∧
    mix3 ⟨a, b, c⟩ = ⟨a, b + a, (c - b) ^^^ rot b 8⟩ ∧
    mix4 ⟨a, b, c⟩ = ⟨(a - c) ^^^ rot c 16, b, c + b⟩ ∧
    mix5 ⟨a, b, c⟩ = ⟨a + c, (b - a) ^^^ rot a 19, c⟩ ∧
    mix6 ⟨a, b, c⟩ = ⟨a, b + a, (c - b) ^^^ rot b 4⟩ ∧
    mix ⟨a, b, c⟩ = mix6 (mix5 (mix4 (mix3 (mix2 (mix1 ⟨a, b, c⟩)))))

/-- 44_finalize.md R155 to R162: each line of the finalization, on any registers, and FINAL as the seven lines in order. -/
def Obligations.FinalLinesAreAsWritten : Prop :=
  ∀ a b c : Word,
    fin1 ⟨a, b, c⟩ = ⟨a, b, (c ^^^ b) - rot b 14⟩ ∧
    fin2 ⟨a, b, c⟩ = ⟨(a ^^^ c) - rot c 11, b, c⟩ ∧
    fin3 ⟨a, b, c⟩ = ⟨a, (b ^^^ a) - rot a 25, c⟩ ∧
    fin4 ⟨a, b, c⟩ = ⟨a, b, (c ^^^ b) - rot b 16⟩ ∧
    fin5 ⟨a, b, c⟩ = ⟨(a ^^^ c) - rot c 4, b, c⟩ ∧
    fin6 ⟨a, b, c⟩ = ⟨a, (b ^^^ a) - rot a 14, c⟩ ∧
    fin7 ⟨a, b, c⟩ = ⟨a, b, (c ^^^ b) - rot b 24⟩ ∧
    final ⟨a, b, c⟩ = fin7 (fin6 (fin5 (fin4 (fin3 (fin2 (fin1 ⟨a, b, c⟩))))))

/-- 95_test_vectors.md section 1.1: the four fixed vectors of the source, and one derived vector each of MIX and FINAL
(sections 4.4, 4.6). -/
def Obligations.FixedVectorsAreReproduced : Prop :=
  hash32 [0x48#8, 0x65#8, 0x6c#8, 0x6c#8, 0x6f#8, 0x2c#8, 0x20#8, 0x4a#8, 0x65#8, 0x6e#8, 0x6b#8, 0x69#8, 0x6e#8,
    0x73#8, 0x21#8] 0#32 = 2484708164#32 ∧
  hash32 [0x48#8, 0x65#8, 0x6c#8, 0x6c#8, 0x6f#8, 0x20#8, 0x4a#8, 0x65#8, 0x6e#8, 0x6b#8, 0x69#8, 0x6e#8, 0x73#8,
    0x73#8] 0#32 = 850494015#32 ∧
  hash32 [0x48#8, 0x65#8, 0x6c#8, 0x6c#8, 0x6f#8, 0x2c#8, 0x20#8, 0x4a#8, 0x65#8, 0x6e#8, 0x6b#8, 0x69#8, 0x6e#8,
    0x73#8] 0#32 = 3393305742#32 ∧
  hash32 [0x68#8, 0x65#8, 0x6c#8, 0x6c#8, 0x6f#8, 0x2c#8, 0x20#8, 0x6a#8, 0x65#8, 0x6e#8, 0x6b#8, 0x69#8, 0x6e#8,
    0x73#8, 0x21#8] 0#32 = 3521406038#32 ∧
  mix ⟨0x01234567#32, 0x89abcdef#32, 0xdeadbeef#32⟩ = ⟨0x7da24828#32, 0xa0929946#32, 0x3a302968#32⟩ ∧
  final ⟨0x01234567#32, 0x89abcdef#32, 0xdeadbeef#32⟩ = ⟨0x74020513#32, 0x282bc4e6#32, 0x4c016653#32⟩

/-- 42_block_mixer.md R128, 44_finalize.md R162: MIX and FINAL are bijections of the 96-bit state. -/
def Obligations.MixAndFinalAreBijections : Prop :=
  Function.Bijective mix ∧ Function.Bijective final

/-- 42_block_mixer.md R120, 20_memory.md R47, R49: the three words of a full block are the little-endian values of its lanes,
each byte taken as 0 to 255. -/
def Obligations.BlockWordsAreLittleEndian : Prop :=
  ∀ s : State,
    bpack s =
      { toA := leWord (memRead 0 s) (memRead 1 s) (memRead 2 s) (memRead 3 s)
        toB := leWord (memRead 4 s) (memRead 5 s) (memRead 6 s) (memRead 7 s)
        toC := leWord (memRead 8 s) (memRead 9 s) (memRead 10 s) (memRead 11 s) }

/-- 43_tail_packer.md R141 (ii), (iii), (iv): the conditional additions of TPACK give the little-endian packing of the `r`
tail bytes followed by zero bytes; no byte at `r` or above is used, and bits 31:24 of remC are zero. -/
def Obligations.TailWordsAreLittleEndian : Prop :=
  ∀ (r : Nat) (byte : Fin 12 → Byte), 1 ≤ r → r ≤ 11 →
    let b : Fin 12 → Byte := fun k => if k.val < r then byte k else 0x00#8
    tpack r byte =
      { toA := leWord (b 0) (b 1) (b 2) (b 3)
        toB := leWord (b 4) (b 5) (b 6) (b 7)
        toC := leWord (b 8) (b 9) (b 10) 0x00#8 }

/-- 20_memory.md R45, R46, 10_state.md R25: contents of BUF in the canonical form that agree on every lane are the same
data. The canonical form is the model's own representation (log 5, DESIGN CHOICE): no rule of the spec speaks of it. -/
def Obligations.EqualLanesAreEqualBuffers : Prop :=
  ∀ m m' : Memory, Memory.wf m = true → Memory.wf m' = true →
    (∀ k : Fin 12, Memory.read m k.val = Memory.read m' k.val) → m = m'

/-! ## Reset and stepping -/

/-- 10_state.md R36, R32, 60_exceptions.md R199: the control state after reset, the status word and the `done` output. (A,
B, C and BUF are unspecified there: nothing is said of the values the model gives them.) -/
def Obligations.ResetLeavesTheControlState : Prop :=
  State.reset.ph = .idle ∧ State.reset.n = 0 ∧ State.reset.z = false ∧ State.reset.err = 0#2 ∧
  statusWord State.reset = 0x00000000#32 ∧ doneLine State.reset = false

/-- 70_reset_and_hazards.md R215, R216: reset is enabled in every state; it leaves the control state of 10_state.md R36 and
owes no response, whatever the block was doing. Nothing is said of the values in A, B, C and BUF, which become unspecified.
Two clauses are the model's own: that the response port then holds nothing is its form of 'no response is owed' (log 3), and
that BUF is in canonical form (`Memory.wf`) speaks of its representation of BUF (log 5, DESIGN CHOICE), whatever the free
values in the lanes are (log 6). -/
def Obligations.ResetIsTakenInEveryState : Prop :=
  ∀ (s : State) (later : List HostEvent),
    ∃ t, step { s with host := .reset :: later } = .next t ∧
      t.ph = .idle ∧ t.n = 0 ∧ t.z = false ∧ t.err = 0#2 ∧ doneLine t = false ∧ t.rsp = none ∧
      t.hasScan = s.hasScan ∧ t.host = later ∧ Memory.wf t.buf = true

/-- 00_scope.md R9: the block has no step of its own. With nothing presented, the model's step leaves the state as it is
(log 7, the model's choice). -/
def Obligations.NothingPresentedChangesNothing : Prop :=
  ∀ s : State, s.host = [] → step s = .next s

/-- 00_scope.md R8, 30_encoding.md R75: when the presented word decodes to a command, the step is that command's meaning,
in the state from which the word has been taken. -/
def Obligations.StepRunsTheDecodedCommand : Prop :=
  ∀ (s : State) (w : CmdWord) (later : List HostEvent) (i : Instr),
    decode s.hasScan w = .ok i →
    step { s with host := .command w :: later } = exec i { s with host := later }

/-- 30_encoding.md R66, R70, 60_exceptions.md R194: every command word, accepted or rejected, in every state, completes
and produces one response word; its code says which rejection it met, in the order of decoding, and is 0 to 3; its data
is C for an accepted READ, the status word for an accepted STATUS, and zero in every other case. -/
def Obligations.EveryCommandIsAnsweredOnce : Prop :=
  ∀ (s : State) (w : CmdWord) (later : List HostEvent),
    ∃ t r, step { s with host := .command w :: later } = .next t ∧ t.host = later ∧ t.rsp = some r ∧
      (codeOf r).toNat ≤ 3 ∧
      (codeOf r = 1#4 ↔ decode s.hasScan w = .error .eOp) ∧
      (codeOf r = 2#4 ↔ decode s.hasScan w = .error .eArg) ∧
      (codeOf r = 3#4 ↔ ∃ i, decode s.hasScan w = .ok i ∧ legality i s.ph s.z = .seq) ∧
      (codeOf r = 0#4 → opOf w = 6#4 → dataOf r = s.regs.c) ∧
      (codeOf r = 0#4 → opOf w = 7#4 → dataOf r = statusWord s) ∧
      (¬ (codeOf r = 0#4 ∧ (opOf w = 6#4 ∨ opOf w = 7#4)) → dataOf r = 0x00000000#32)

/-! ## Exceptions -/

/-- 30_encoding.md R71: a reserved opcode is rejected E_OP, whatever its operand and whatever the phase; nothing changes
but the error latch (and the response, and the host's word is taken). -/
def Obligations.ReservedOpcodeIsRejected : Prop :=
  ∀ (s : State) (w : CmdWord) (later : List HostEvent),
    9 ≤ (opOf w).toNat ∨ (opOf w = 1#4 ∧ s.hasScan = false) →
    step { s with host := .command w :: later } =
      .next { s with
        host := later
        err := if s.err = 0#2 then 1#2 else s.err
        rsp := some 0x100000000#36 }

/-- 30_encoding.md R72: a defined opcode whose reserved operand bits are not all zero is rejected E_ARG, whatever the
phase; nothing changes but the error latch (and the response, and the host's word is taken). -/
def Obligations.ReservedOperandBitsAreRejected : Prop :=
  ∀ (s : State) (w : CmdWord) (later : List HostEvent),
    (opOf w ∈ [0#4, 5#4, 6#4, 7#4, 8#4] ∧ argOf w ≠ 0#32) ∨
      (opOf w = 3#4 ∧ (argOf w).extractLsb' 8 24 ≠ 0#24) →
    step { s with host := .command w :: later } =
      .next { s with
        host := later
        err := if s.err = 0#2 then 2#2 else s.err
        rsp := some 0x200000000#36 }

/-- 60_exceptions.md R193, for every command and every phase: `ok` means executed, with the response code OK; `ign` means
accepted with no state change and the response {OK, 0}; `SEQ` means rejected with E_SEQ. STARTZ is E_OP everywhere where
HAS_SCAN = 0. -/
def Obligations.LegalityOfCommandsInPhases : Prop :=
  ∀ (i : Instr) (s : State),
    (i.wellFormed s.hasScan = true →
      match legality i s.ph s.z with
      | .seq =>
        exec i s = .next { s with
          err := if s.err = 0#2 then 3#2 else s.err
          rsp := some 0x300000000#36 }
      | .ignored => exec i s = .next { s with rsp := some 0x000000000#36 }
      | .ok => ∃ t r, exec i s = .next t ∧ t.rsp = some r ∧ codeOf r = 0#4) ∧
    (∀ seed, i = .startz seed → s.hasScan = false →
      exec i s = .next { s with
        err := if s.err = 0#2 then 1#2 else s.err
        rsp := some 0x100000000#36 })

/-- 60_exceptions.md R195: whatever command word is rejected and for whatever reason, the state is exactly as before but
for the error latch, the response is the code with zero data, and the host goes on with its next event. -/
def Obligations.RejectionsChangeNothing : Prop :=
  ∀ (s t : State) (w : CmdWord) (later : List HostEvent) (r : RspWord),
    step { s with host := .command w :: later } = .next t → t.rsp = some r → codeOf r ≠ 0#4 →
    t = { s with host := later, err := t.err, rsp := some r } ∧ dataOf r = 0x00000000#32

/-- 60_exceptions.md R196: on a rejection with code `k`, ERR becomes `k` if it was 0 and is kept otherwise; an accepted
command other than CLEAR never changes it (CLEAR sets it to 0); it is visible in bits 9:8 of the status word. -/
def Obligations.ErrorLatchKeepsTheFirstCode : Prop :=
  ∀ (s : State) (w : CmdWord) (later : List HostEvent),
    ∃ t r, step { s with host := .command w :: later } = .next t ∧ t.rsp = some r ∧
      t.err =
        (if codeOf r ≠ 0#4 then (if s.err = 0#2 then (codeOf r).setWidth 2 else s.err)
         else if opOf w = 8#4 then 0#2 else s.err) ∧
      (statusWord t).extractLsb' 8 2 = t.err

/-! ## The commands -/

/-- 40_session_init.md R90: NOP answers {OK, 0} in every state and changes nothing else. -/
def Obligations.NopOnlyAnswers : Prop :=
  ∀ s : State, exec .nop s = .next { s with rsp := some 0x000000000#36 }

/-- 40_session_init.md R91, R92, R94: STARTZ (where the frontend is built) and STARTN load A, B and C, empty the buffer,
set the mode and the phase, answer {OK, 0}, and change nothing else: BUF, ERR and the ports are as before. -/
def Obligations.StartBeginsAMessage : Prop :=
  ∀ (seed : Word) (s : State),
    (s.hasScan = true →
      exec (.startz seed) s = .next { s with
        regs := ⟨0x9e3779b9#32, 0x9e3779b9#32, seed⟩
        n := 0
        z := true
        ph := .absorb
        rsp := some 0x000000000#36 }) ∧
    exec (.startn seed) s = .next { s with
      regs := ⟨0x9e3779b9#32, 0x9e3779b9#32, seed⟩
      n := 0
      z := false
      ph := .absorb
      rsp := some 0x000000000#36 }

/-- 40_session_init.md R93: CLEAR sets the control state to its reset values, answers {OK, 0}, and changes nothing else: A,
B, C and BUF are not written. -/
def Obligations.ClearResetsTheControlState : Prop :=
  ∀ s : State,
    exec .clear s = .next { s with
      ph := .idle
      n := 0
      z := false
      err := 0#2
      rsp := some 0x000000000#36 }

/-- 41_scan_frontend.md R102, R103, R104: in ABSORB a byte that does not end the message and does not fill the buffer is
written to lane N; N grows by one; the response is {OK, 0}; every other lane and everything else is unchanged. -/
def Obligations.PushbStoresTheByte : Prop :=
  ∀ (byte : Byte) (s : State),
    s.ph = .absorb → (s.z = false ∨ byte ≠ 0x00#8) → s.n.val < 11 →
    ∃ t, exec (.pushb byte) s = .next t ∧
      t.n.val = s.n.val + 1 ∧
      memRead s.n t = byte ∧
      (∀ k : Fin 12, k ≠ s.n → memRead k t = memRead k s) ∧
      t = { s with buf := t.buf, n := t.n, rsp := some 0x000000000#36 }

/-- 41_scan_frontend.md R103, R104, 42_block_mixer.md R121, R129, R130: the twelfth byte of a block, in the same step, is
written to lane 11 and makes the block run: the twelve bytes are added to A, B and C as three little-endian words and
mixed; N is 0 again; the other lanes and everything else are unchanged. -/
def Obligations.TwelfthByteRunsTheBlock : Prop :=
  ∀ (byte : Byte) (s : State),
    s.ph = .absorb → (s.z = false ∨ byte ≠ 0x00#8) → s.n = 11 →
    ∃ t, exec (.pushb byte) s = .next t ∧
      t.n = 0 ∧
      t.regs = mix
        { a := s.regs.a + leWord (memRead 0 s) (memRead 1 s) (memRead 2 s) (memRead 3 s)
          b := s.regs.b + leWord (memRead 4 s) (memRead 5 s) (memRead 6 s) (memRead 7 s)
          c := s.regs.c + leWord (memRead 8 s) (memRead 9 s) (memRead 10 s) byte } ∧
      memRead 11 t = byte ∧
      (∀ k : Fin 12, k ≠ 11 → memRead k t = memRead k s) ∧
      t = { s with buf := t.buf, n := t.n, regs := t.regs, rsp := some 0x000000000#36 }

/-- 44_finalize.md R164, R165, 43_tail_packer.md R141 to R143, 41_scan_frontend.md R103: in ABSORB, FINISH in either mode
and PUSHB of 0x00 in Z mode end the message: the N bytes of the tail, zero bytes after them, are added to A, B and C as
little-endian words (nothing for N = 0), FINAL runs, N is 0, the phase is DONE, the response is {OK, 0}; BUF and
everything else are unchanged (the terminator is not stored). -/
def Obligations.EndingAMessageFinalizes : Prop :=
  ∀ (i : Instr) (s : State),
    s.ph = .absorb → (i = .finish ∨ (i = .pushb 0x00#8 ∧ s.z = true)) →
    let b : Fin 12 → Byte := fun k => if k < s.n then memRead k s else 0x00#8
    exec i s = .next { s with
      regs := final
        { a := s.regs.a + leWord (b 0) (b 1) (b 2) (b 3)
          b := s.regs.b + leWord (b 4) (b 5) (b 6) (b 7)
          c := s.regs.c + leWord (b 8) (b 9) (b 10) 0x00#8 }
      n := 0
      ph := .done
      rsp := some 0x000000000#36 }

/-- 41_scan_frontend.md R105 (i), (ii), (v), 20_memory.md R48: in every state a PUSHW leaves the machine as the four
commands PUSHB byte_0 to PUSHB byte_3 leave it, the byte at ARG[7:0] first. -/
def Obligations.PushwIsFourPushb : Prop :=
  ∀ (word : Word) (s : State),
    ∃ s1 s2 s3, exec (.pushb (word.extractLsb' 0 8)) s = .next s1 ∧
      exec (.pushb (word.extractLsb' 8 8)) s1 = .next s2 ∧
      exec (.pushb (word.extractLsb' 16 8)) s2 = .next s3 ∧
      exec (.pushb (word.extractLsb' 24 8)) s3 = exec (.pushw word) s

/-- 41_scan_frontend.md R105, 20_memory.md R51: in ABSORB a PUSHW none of whose bytes ends the message writes its bytes to
four successive lanes, going from lane 11 on to lane 0; if they reach the twelfth lane the block runs, on the lanes below
N and the first of the new bytes; the response is {OK, 0}, and everything else, the other lanes included, is unchanged. -/
def Obligations.PushwStoresFourBytes : Prop :=
  ∀ (word : Word) (s : State),
    let byte : Nat → Byte := fun j => word.extractLsb' (8 * j) 8
    s.ph = .absorb → (s.z = false ∨ ∀ j, j < 4 → byte j ≠ 0x00#8) →
    ∃ t, exec (.pushw word) s = .next t ∧
      t.n.val = (s.n.val + 4) % 12 ∧
      (∀ j, j < 4 → memRead (Fin.ofNat 12 (s.n.val + j)) t = byte j) ∧
      (∀ k : Fin 12, (∀ j, j < 4 → Fin.ofNat 12 (s.n.val + j) ≠ k) → memRead k t = memRead k s) ∧
      (s.n.val + 4 < 12 → t.regs = s.regs) ∧
      (12 ≤ s.n.val + 4 →
        let b : Fin 12 → Byte := fun k => if k < s.n then memRead k s else byte (k.val - s.n.val)
        t.regs = mix
          { a := s.regs.a + leWord (b 0) (b 1) (b 2) (b 3)
            b := s.regs.b + leWord (b 4) (b 5) (b 6) (b 7)
            c := s.regs.c + leWord (b 8) (b 9) (b 10) (b 11) }) ∧
      t = { s with buf := t.buf, n := t.n, regs := t.regs, rsp := some 0x000000000#36 }

/-- 45_result_status.md R175, R176: in DONE, READ answers OK with all 32 bits of C, and changes nothing else; in IDLE and
ABSORB it is rejected E_SEQ with zero data. -/
def Obligations.ReadAnswersTheResult : Prop :=
  ∀ s : State,
    (s.ph = .done → exec .read s = .next { s with rsp := some (0x0#4 ++ s.regs.c) }) ∧
    (s.ph ≠ .done →
      exec .read s = .next { s with
        err := if s.err = 0#2 then 3#2 else s.err
        rsp := some 0x300000000#36 })

/-- 10_state.md R32, 45_result_status.md R177: in every state STATUS answers OK with the status word, whose fields are
those of the state before the command, and changes nothing else. -/
def Obligations.StatusAnswersTheStatusWord : Prop :=
  ∀ s : State, ∃ r : RspWord,
    exec .status s = .next { s with rsp := some r } ∧
    codeOf r = 0#4 ∧
    r.extractLsb' 0 2 = (match s.ph with | .idle => 0#2 | .absorb => 1#2 | .done => 2#2) ∧
    r.getLsbD 2 = s.z ∧
    r.getLsbD 3 = false ∧
    (r.extractLsb' 4 4).toNat = s.n.val ∧
    r.extractLsb' 8 2 = s.err ∧
    r.extractLsb' 10 22 = 0#22

/-- 20_memory.md R53: READ, STATUS and NOP repeated answer the same and change no state; STARTZ, STARTN and CLEAR executed
twice in a row leave the same state as once. -/
def Obligations.RepeatingTheseCommandsChangesNothing : Prop :=
  ∀ (i : Instr) (s : State),
    (i = .nop ∨ i = .read ∨ i = .status ∨ i = .clear ∨ ∃ seed, i = .startz seed ∨ i = .startn seed) →
    ∃ t, exec i s = .next t ∧ exec i t = .next t

/-! ## The whole machine -/

/-- 10_state.md R27, complete: the phase after every event of the host, in every state. -/
def Obligations.PhaseMovesOnlyAlongTheArrows : Prop :=
  ∀ (s : State) (e : HostEvent) (later : List HostEvent),
    ∃ t, step { s with host := e :: later } = .next t ∧
      t.ph =
        match e with
        | .reset => .idle
        | .command w =>
          match decode s.hasScan w with
          | .error _ => s.ph
          | .ok (.startz _) => .absorb
          | .ok (.startn _) => .absorb
          | .ok .clear => .idle
          | .ok .finish => if s.ph = .absorb then .done else s.ph
          | .ok (.pushb byte) => if s.ph = .absorb ∧ s.z = true ∧ byte = 0x00#8 then .done else s.ph
          | .ok (.pushw word) =>
            if s.ph = .absorb ∧ s.z = true ∧ 0x00#8 ∈ carried (.pushw word) then .done else s.ph
          | .ok .nop => s.ph
          | .ok .read => s.ph
          | .ok .status => s.ph

/-- 10_state.md R23, R25, R28, R29, 00_scope.md R7: which events write what. A, B, C are written only by reset, a START, and
pushes and FINISH in ABSORB; BUF only by reset and pushes in ABSORB; Z only by reset, a START and CLEAR; an ERR that is
not 0 only by reset and CLEAR, which make it 0; N only by reset, a START, CLEAR, and pushes and FINISH in ABSORB;
HAS_SCAN by nothing. -/
def Obligations.OnlyTheseEventsWrite : Prop :=
  ∀ (s t : State) (e : HostEvent) (later : List HostEvent),
    step { s with host := e :: later } = .next t →
    let decodesTo : (Instr → Prop) → Prop := fun p => ∃ w i, e = .command w ∧ decode s.hasScan w = .ok i ∧ p i
    let starts : Instr → Prop := fun i => ∃ seed, i = .startz seed ∨ i = .startn seed
    let pushes : Instr → Prop := fun i => (∃ byte, i = .pushb byte) ∨ ∃ word, i = .pushw word
    (t.regs ≠ s.regs →
      e = .reset ∨ decodesTo starts ∨ (s.ph = .absorb ∧ decodesTo fun i => pushes i ∨ i = .finish)) ∧
    (t.buf ≠ s.buf → e = .reset ∨ (s.ph = .absorb ∧ decodesTo pushes)) ∧
    (t.z ≠ s.z → e = .reset ∨ decodesTo fun i => starts i ∨ i = .clear) ∧
    (t.err ≠ s.err → s.err ≠ 0#2 → t.err = 0#2 ∧ (e = .reset ∨ decodesTo fun i => i = .clear)) ∧
    (t.n ≠ s.n →
      e = .reset ∨ decodesTo (fun i => starts i ∨ i = .clear) ∨
        (s.ph = .absorb ∧ decodesTo fun i => pushes i ∨ i = .finish)) ∧
    t.hasScan = s.hasScan ∧ t.host = later

/-- 60_exceptions.md R199: in every state `done` is 1 exactly when the phase is DONE. The step that ends a message, FINISH
in ABSORB and a push carrying 0x00 in ABSORB with Z = 1, leaves it 1; an accepted STARTZ, STARTN or CLEAR, and reset, leave
it 0; it rises and falls at no other step, READ included. -/
def Obligations.DoneRisesAtTheEndOfAMessage : Prop :=
  let ends : State → Instr → Prop := fun s i => s.ph = .absorb ∧ (i = .finish ∨ s.z = true ∧ 0x00#8 ∈ carried i)
  let abandons : Instr → Prop := fun i => i = .clear ∨ ∃ seed, i = .startz seed ∨ i = .startn seed
  (∀ s : State, doneLine s = true ↔ s.ph = .done) ∧
  (∀ (s : State) (w : CmdWord) (later : List HostEvent) (i : Instr), decode s.hasScan w = .ok i →
    (ends s i → ∃ t, step { s with host := .command w :: later } = .next t ∧ doneLine t = true ∧ t.n = 0) ∧
    (abandons i → ∃ t, step { s with host := .command w :: later } = .next t ∧ doneLine t = false)) ∧
  (∀ (s : State) (later : List HostEvent),
    ∃ t, step { s with host := .reset :: later } = .next t ∧ doneLine t = false) ∧
  ∀ (s t : State) (e : HostEvent) (later : List HostEvent),
    step { s with host := e :: later } = .next t →
    (doneLine s = false → doneLine t = true →
      ∃ w i, e = .command w ∧ decode s.hasScan w = .ok i ∧ ends s i) ∧
    (doneLine s = true → doneLine t = false →
      e = .reset ∨ ∃ w i, e = .command w ∧ decode s.hasScan w = .ok i ∧ abandons i)

/-- 10_state.md R35: what holds between any two commands is kept by every step, from every state in which it holds. One
clause of the invariant is the model's and no part of R35: that BUF is in canonical form (`Memory.wf`), the representation
log 5 chooses (DESIGN CHOICE). -/
def Obligations.InvariantsHoldBetweenCommands : Prop :=
  ∀ s t : State, HoldsBetweenCommands s → step s = .next t → HoldsBetweenCommands t

/-- 10_state.md R35, R36: the invariants hold after reset. One clause is the model's and no part of R35 or R36: that BUF is
in canonical form (`Memory.wf`), the representation log 5 chooses (DESIGN CHOICE), with nothing listed at State.reset. -/
def Obligations.InvariantsHoldAtReset : Prop :=
  HoldsBetweenCommands State.reset

/-- 10_state.md R24, R25, R36, 43_tail_packer.md R141 (iii): no unspecified value is ever observed. Two states that differ
only in values no rule reads (A, B, C outside a message, A and B after it, the lanes at N and above) answer every event
alike, and differ only in such values again. -/
def Obligations.UnspecifiedValuesAreNeverObserved : Prop :=
  ∀ s t s' : State, SameSpecified s t → step s = .next s' →
    ∃ t', step t = .next t' ∧ SameSpecified s' t'

/-! ## Messages -/

/-- 42_block_mixer.md R130, 10_state.md R25, 20_memory.md R51: after a START and any deliveries that do not end the
message, in either mode, the registers are those of HASH's loop on the bytes carried, N is the number of bytes modulo 12,
and the lanes below N are the bytes the loop has left, in order. -/
def Obligations.DeliveryFollowsTheHashLoop : Prop :=
  ∀ (s : State) (start : Instr) (seed : Word) (program : List Instr),
    (∀ i ∈ program, delivers i = true) →
    (start = .startn seed ∨
      (start = .startz seed ∧ s.hasScan = true ∧ 0x00#8 ∉ carriedBy program)) →
    ∃ t, Runs (start :: program) s t ∧
      t.ph = .absorb ∧
      t.regs = (hashBlocks (initRegs seed) (carriedBy program)).1 ∧
      t.n.val = (carriedBy program).length % 12 ∧
      (∀ k : Fin 12, k < t.n →
        some (memRead k t) = (carriedBy program)[12 * ((carriedBy program).length / 12) + k.val]?)

/-- 45_result_status.md R179: from any state, a Z-mode message, pushes with NOP and STATUS interleaved anywhere and
optionally FINISH, computes hash32 of the bytes carried if they hold a 0x00 byte or FINISH was issued; if neither, the
phase is still ABSORB and READ is rejected with E_SEQ. -/
def Obligations.ZModeMessagesComputeHash32 : Prop :=
  ∀ (s : State) (seed : Word) (program after : List Instr),
    s.hasScan = true → (∀ i ∈ program, delivers i = true) → (∀ i ∈ after, i = .nop ∨ i = .status) →
    (0x00#8 ∈ carriedBy program →
      ∃ t, Runs (.startz seed :: program ++ [.read]) s t ∧
        t.rsp = some (0x0#4 ++ hash32 (carriedBy program) seed)) ∧
    (∃ t, Runs (.startz seed :: program ++ .finish :: after ++ [.read]) s t ∧
      t.rsp = some (0x0#4 ++ hash32 (carriedBy program) seed)) ∧
    (0x00#8 ∉ carriedBy program →
      ∃ t, Runs (.startz seed :: program ++ [.read]) s t ∧ t.ph = .absorb ∧ t.rsp = some 0x300000000#36)

/-- 45_result_status.md R180: from any state, an N-mode message computes HASH over exactly the bytes pushed, zero bytes
included; for bytes without 0x00 this is hash32 of them and of them followed by a terminator and anything; and the rule's
example. -/
def Obligations.NModeMessagesComputeHash : Prop :=
  (∀ (s : State) (seed : Word) (program after : List Instr),
    (∀ i ∈ program, delivers i = true) → (∀ i ∈ after, i = .nop ∨ i = .status) →
    ∃ t, Runs (.startn seed :: program ++ .finish :: after ++ [.read]) s t ∧
      t.rsp = some (0x0#4 ++ hashOf (carriedBy program) seed)) ∧
  (∀ (key more : List Byte) (seed : Word), 0x00#8 ∉ key →
    hash32 key seed = hashOf key seed ∧ hash32 (key ++ 0x00#8 :: more) seed = hashOf key seed) ∧
  hashOf [0x61#8, 0x62#8, 0x00#8, 0x63#8, 0x64#8] 0#32 = 0xee4a5800#32 ∧
  hash32 [0x61#8, 0x62#8, 0x00#8, 0x63#8, 0x64#8] 0#32 = 0x47ff88cb#32

/-- 45_result_status.md R181: the result of a message depends on its seed, its mode and its bytes only: not on the state
before its START, nor on how the bytes are split between PUSHB and PUSHW, nor on interleaved NOP and STATUS. -/
def Obligations.ResultIsIndependentOfHistory : Prop :=
  ∀ (s s' : State) (start : Instr) (seed : Word) (program program' : List Instr),
    (start = .startn seed ∨ (start = .startz seed ∧ s.hasScan = true ∧ s'.hasScan = true)) →
    (∀ i ∈ program, delivers i = true) → (∀ i ∈ program', delivers i = true) →
    carriedBy program = carriedBy program' →
    ∃ t t', Runs (start :: program ++ [.finish, .read]) s t ∧
      Runs (start :: program' ++ [.finish, .read]) s' t' ∧ t.rsp = t'.rsp

/-- 41_scan_frontend.md R106: in DONE of a Z-mode message, any number of PUSHB, PUSHW and FINISH are accepted with {OK, 0}
and change no state. -/
def Obligations.CommandsAfterTheTerminatorAreIgnored : Prop :=
  ∀ (s : State) (program : List Instr), s.ph = .done → s.z = true → program ≠ [] →
    (∀ i ∈ program, i = .finish ∨ (∃ byte, i = .pushb byte) ∨ ∃ word, i = .pushw word) →
    Runs program s { s with rsp := some 0x000000000#36 }

/-- 30_encoding.md R77, 45_result_status.md R180: for a text without a 0x00 byte, HASHZ and HASHN both answer HASH of the
text, from any state of an instance with the frontend. -/
def Obligations.PseudoCommandsHashTheText : Prop :=
  ∀ (s : State) (text : List Byte) (seed : Word), s.hasScan = true → 0x00#8 ∉ text →
    ∃ t u, Runs (hashz text seed) s t ∧ Runs (hashn text seed) s u ∧
      t.rsp = some (0x0#4 ++ hashOf text seed) ∧ u.rsp = some (0x0#4 ++ hashOf text seed)
end

