-- ==== Sys2Proof/Laws/Memory.lean ====
section
/-! SUPPORT. The laws of the byte buffer (20_memory.md R46): reading after writing, and that every memory operation keeps
the canonical form. -/

namespace Sys2Proof.Machine

theorem Memory.read_insert_same (k : Nat) (v : Byte) (m : Memory) (fresh : ∀ c ∈ m, c.1 ≠ k) :
    Memory.read (Memory.insert k v m) k = v := by
  induction m with
  | nil => simp [Memory.insert, Memory.read]
  | cons c rest ih =>
    have hc : c.1 ≠ k := fresh c (by simp)
    have hrest : ∀ d ∈ rest, d.1 ≠ k := fun d hd => fresh d (by simp [hd])
    by_cases h : k < c.1
    · simp [Memory.insert, Memory.read, h]
    · simp [Memory.insert, Memory.read, h, hc, ih hrest]

theorem Memory.read_insert_other (k j : Nat) (v : Byte) (m : Memory) (other : j ≠ k) :
    Memory.read (Memory.insert k v m) j = Memory.read m j := by
  induction m with
  | nil => simp [Memory.insert, Memory.read, Ne.symm other]
  | cons c rest ih =>
    by_cases h : k < c.1
    · simp [Memory.insert, Memory.read, h, Ne.symm other]
    · simp [Memory.insert, Memory.read, h, ih]

theorem Memory.read_fresh (k : Nat) (m : Memory) (fresh : ∀ c ∈ m, c.1 ≠ k) :
    Memory.read m k = Config.unwrittenLane := by
  induction m with
  | nil => rfl
  | cons c rest ih =>
    simp [Memory.read, fresh c (by simp), ih fun d hd => fresh d (by simp [hd])]

theorem Memory.read_without_other (k j : Nat) (m : Memory) (other : j ≠ k) :
    Memory.read (m.filter fun c => c.1 ≠ k) j = Memory.read m j := by
  induction m with
  | nil => rfl
  | cons c rest ih =>
    by_cases h : c.1 = k
    · have hj : ¬ c.1 = j := fun e => other (e.symm.trans h)
      simpa [List.filter_cons, h, Memory.read, Ne.symm other] using ih
    · by_cases hj : c.1 = j
      · simp [Memory.read, hj, other]
      · simpa [List.filter_cons, h, Memory.read, hj] using ih

/-- Reading a lane after writing it gives the value written (20_memory.md R46). -/
theorem Memory.read_write_same (m : Memory) (k : Nat) (v : Byte) :
    Memory.read (Memory.write m k v) k = v := by
  have fresh : ∀ c ∈ m.filter fun c => c.1 ≠ k, c.1 ≠ k := by simp
  by_cases h : v = Config.unwrittenLane
  · simp only [Memory.write, h, if_true]
    exact Memory.read_fresh k _ fresh
  · simp only [Memory.write, h, if_false]
    exact Memory.read_insert_same k v _ fresh

/-- Writing a lane leaves every other lane alone (20_memory.md R46). -/
theorem Memory.read_write_other (m : Memory) (k j : Nat) (v : Byte) (other : j ≠ k) :
    Memory.read (Memory.write m k v) j = Memory.read m j := by
  have h := Memory.read_without_other k j m other
  by_cases hv : v = Config.unwrittenLane
  · simp only [Memory.write, hv, if_true]; exact h
  · simp only [Memory.write, hv, if_false, Memory.read_insert_other k j v _ other]; exact h

@[simp] theorem memRead_memWrite_same (k : Fin 12) (v : Byte) (s : State) :
    memRead k (memWrite k v s) = v := Memory.read_write_same s.buf k.val v

theorem memRead_memWrite_other (k j : Fin 12) (v : Byte) (s : State) (other : j ≠ k) :
    memRead j (memWrite k v s) = memRead j s :=
  Memory.read_write_other s.buf k.val j.val v fun e => other (Fin.ext e)

theorem Memory.wfFrom_weaken (low low' : Nat) (m : Memory) (le : low' ≤ low)
    (h : Memory.wfFrom low m = true) : Memory.wfFrom low' m = true := by
  cases m with
  | nil => rfl
  | cons c rest =>
    simp only [Memory.wfFrom, Bool.and_eq_true, decide_eq_true_eq] at h ⊢
    obtain ⟨⟨⟨h1, h2⟩, h3⟩, h4⟩ := h
    exact ⟨⟨⟨by omega, h2⟩, h3⟩, h4⟩

theorem Memory.wfFrom_without (k low : Nat) (m : Memory) (h : Memory.wfFrom low m = true) :
    Memory.wfFrom low (m.filter fun c => c.1 ≠ k) = true := by
  induction m generalizing low with
  | nil => rfl
  | cons c rest ih =>
    simp only [Memory.wfFrom, Bool.and_eq_true, decide_eq_true_eq] at h
    obtain ⟨⟨⟨h1, h2⟩, h3⟩, h4⟩ := h
    by_cases hc : c.1 = k
    · simp only [List.filter_cons, hc, ne_eq, not_true_eq_false, decide_false, Bool.false_eq_true, if_false]
      exact Memory.wfFrom_weaken _ low _ (by omega) (ih _ h4)
    · simp only [List.filter_cons, hc, ne_eq, not_false_eq_true, decide_true, if_true, Memory.wfFrom,
        Bool.and_eq_true, decide_eq_true_eq]
      exact ⟨⟨⟨h1, h2⟩, h3⟩, ih _ h4⟩

theorem Memory.wfFrom_insert (k low : Nat) (v : Byte) (m : Memory) (h : Memory.wfFrom low m = true)
    (fresh : ∀ c ∈ m, c.1 ≠ k) (hl : low ≤ k) (hk : k < 12) (hv : v ≠ Config.unwrittenLane) :
    Memory.wfFrom low (Memory.insert k v m) = true := by
  induction m generalizing low with
  | nil => simp [Memory.insert, Memory.wfFrom, hl, hk, hv]
  | cons c rest ih =>
    simp only [Memory.wfFrom, Bool.and_eq_true, decide_eq_true_eq] at h
    obtain ⟨⟨⟨h1, h2⟩, h3⟩, h4⟩ := h
    have hc : c.1 ≠ k := fresh c (by simp)
    by_cases hkc : k < c.1
    · simp only [Memory.insert, hkc, if_true, Memory.wfFrom, Bool.and_eq_true, decide_eq_true_eq]
      exact ⟨⟨⟨hl, hk⟩, by simpa using hv⟩, ⟨⟨by omega, h2⟩, h3⟩, h4⟩
    · simp only [Memory.insert, hkc, if_false, Memory.wfFrom, Bool.and_eq_true, decide_eq_true_eq]
      exact ⟨⟨⟨h1, h2⟩, h3⟩, ih _ h4 (fun d hd => fresh d (by simp [hd])) (by omega)⟩

/-- A write keeps the canonical form. -/
theorem Memory.wf_write (m : Memory) (k : Nat) (v : Byte) (h : Memory.wf m = true) (hk : k < 12) :
    Memory.wf (Memory.write m k v) = true := by
  have hw := Memory.wfFrom_without k 0 m h
  by_cases hv : v = Config.unwrittenLane
  · simp only [Memory.write, hv, if_true]; exact hw
  · simp only [Memory.write, hv, if_false]
    exact Memory.wfFrom_insert k 0 v _ hw (by simp) (by omega) hk hv

theorem wf_memWrite (k : Fin 12) (v : Byte) (s : State) (h : Memory.wf s.buf = true) :
    Memory.wf (memWrite k v s).buf = true := Memory.wf_write s.buf k.val v h k.isLt

/-- The contents of BUF after a reset of the running block have the canonical form, whatever the free values are. -/
theorem wf_residueBuf (k : Nat) : Memory.wf (residueBuf k) = true := by
  have step : ∀ (lanes : List Nat) (m : Memory), (∀ lane ∈ lanes, lane < 12) → Memory.wf m = true →
      Memory.wf (lanes.foldl (fun m lane => Memory.write m lane (Config.residueByte k lane)) m) = true := by
    intro lanes
    induction lanes with
    | nil => exact fun m _ h => h
    | cons lane rest ih =>
      exact fun m hl h => ih _ (fun l h' => hl l (by simp [h']))
        (Memory.wf_write m lane _ h (hl lane (by simp)))
  exact step _ _ (by simp) rfl

theorem wf_reset : Memory.wf State.reset.buf = true := rfl

end Sys2Proof.Machine
end

