-- ==== Sys2Proof/Laws/State.lean ====
section
/-! SUPPORT. One lemma per field for every named update of the state, so that no later proof unfolds a record update. -/

namespace Sys2Proof.Machine

@[simp] theorem memWrite_regs (k : Fin 12) (v : Byte) (s : State) :
    (memWrite k v s).regs = s.regs := rfl

@[simp] theorem memWrite_buf (k : Fin 12) (v : Byte) (s : State) :
    (memWrite k v s).buf = Memory.write s.buf k.val v := rfl

@[simp] theorem memWrite_n (k : Fin 12) (v : Byte) (s : State) :
    (memWrite k v s).n = s.n := rfl

@[simp] theorem memWrite_ph (k : Fin 12) (v : Byte) (s : State) :
    (memWrite k v s).ph = s.ph := rfl

@[simp] theorem memWrite_z (k : Fin 12) (v : Byte) (s : State) :
    (memWrite k v s).z = s.z := rfl

@[simp] theorem memWrite_err (k : Fin 12) (v : Byte) (s : State) :
    (memWrite k v s).err = s.err := rfl

@[simp] theorem memWrite_hasScan (k : Fin 12) (v : Byte) (s : State) :
    (memWrite k v s).hasScan = s.hasScan := rfl

@[simp] theorem memWrite_host (k : Fin 12) (v : Byte) (s : State) :
    (memWrite k v s).host = s.host := rfl

@[simp] theorem memWrite_rsp (k : Fin 12) (v : Byte) (s : State) :
    (memWrite k v s).rsp = s.rsp := rfl

@[simp] theorem memWrite_resets (k : Fin 12) (v : Byte) (s : State) :
    (memWrite k v s).resets = s.resets := rfl

@[simp] theorem respond_regs (data : Word) (s : State) :
    (respond data s).regs = s.regs := rfl

@[simp] theorem respond_buf (data : Word) (s : State) :
    (respond data s).buf = s.buf := rfl

@[simp] theorem respond_n (data : Word) (s : State) :
    (respond data s).n = s.n := rfl

@[simp] theorem respond_ph (data : Word) (s : State) :
    (respond data s).ph = s.ph := rfl

@[simp] theorem respond_z (data : Word) (s : State) :
    (respond data s).z = s.z := rfl

@[simp] theorem respond_err (data : Word) (s : State) :
    (respond data s).err = s.err := rfl

@[simp] theorem respond_hasScan (data : Word) (s : State) :
    (respond data s).hasScan = s.hasScan := rfl

@[simp] theorem respond_host (data : Word) (s : State) :
    (respond data s).host = s.host := rfl

@[simp] theorem respond_rsp (data : Word) (s : State) :
    (respond data s).rsp = some (rspWord okCode data) := rfl

@[simp] theorem respond_resets (data : Word) (s : State) :
    (respond data s).resets = s.resets := rfl

@[simp] theorem reject_regs (r : Reject) (s : State) :
    (reject r s).regs = s.regs := rfl

@[simp] theorem reject_buf (r : Reject) (s : State) :
    (reject r s).buf = s.buf := rfl

@[simp] theorem reject_n (r : Reject) (s : State) :
    (reject r s).n = s.n := rfl

@[simp] theorem reject_ph (r : Reject) (s : State) :
    (reject r s).ph = s.ph := rfl

@[simp] theorem reject_z (r : Reject) (s : State) :
    (reject r s).z = s.z := rfl

@[simp] theorem reject_err (r : Reject) (s : State) :
    (reject r s).err = latchError s.err r := rfl

@[simp] theorem reject_hasScan (r : Reject) (s : State) :
    (reject r s).hasScan = s.hasScan := rfl

@[simp] theorem reject_host (r : Reject) (s : State) :
    (reject r s).host = s.host := rfl

@[simp] theorem reject_rsp (r : Reject) (s : State) :
    (reject r s).rsp = some (rspWord (rejectCode r) 0#32) := rfl

@[simp] theorem reject_resets (r : Reject) (s : State) :
    (reject r s).resets = s.resets := rfl

@[simp] theorem applyReset_regs (s : State) :
    (applyReset s).regs = ⟨Config.residueWord s.resets 0, Config.residueWord s.resets 1, Config.residueWord s.resets 2⟩ := rfl

@[simp] theorem applyReset_buf (s : State) :
    (applyReset s).buf = residueBuf s.resets := rfl

@[simp] theorem applyReset_n (s : State) :
    (applyReset s).n = 0 := rfl

@[simp] theorem applyReset_ph (s : State) :
    (applyReset s).ph = .idle := rfl

@[simp] theorem applyReset_z (s : State) :
    (applyReset s).z = false := rfl

@[simp] theorem applyReset_err (s : State) :
    (applyReset s).err = 0#2 := rfl

@[simp] theorem applyReset_hasScan (s : State) :
    (applyReset s).hasScan = s.hasScan := rfl

@[simp] theorem applyReset_host (s : State) :
    (applyReset s).host = s.host := rfl

@[simp] theorem applyReset_rsp (s : State) :
    (applyReset s).rsp = none := rfl

@[simp] theorem applyReset_resets (s : State) :
    (applyReset s).resets = s.resets + 1 := rfl

@[simp] theorem init_regs (seed : Word) (s : State) :
    (init seed s).regs = initRegs seed := rfl

@[simp] theorem init_buf (seed : Word) (s : State) :
    (init seed s).buf = s.buf := rfl

@[simp] theorem init_n (seed : Word) (s : State) :
    (init seed s).n = 0 := rfl

@[simp] theorem init_ph (seed : Word) (s : State) :
    (init seed s).ph = s.ph := rfl

@[simp] theorem init_z (seed : Word) (s : State) :
    (init seed s).z = s.z := rfl

@[simp] theorem init_err (seed : Word) (s : State) :
    (init seed s).err = s.err := rfl

@[simp] theorem init_hasScan (seed : Word) (s : State) :
    (init seed s).hasScan = s.hasScan := rfl

@[simp] theorem init_host (seed : Word) (s : State) :
    (init seed s).host = s.host := rfl

@[simp] theorem init_rsp (seed : Word) (s : State) :
    (init seed s).rsp = s.rsp := rfl

@[simp] theorem init_resets (seed : Word) (s : State) :
    (init seed s).resets = s.resets := rfl

@[simp] theorem startMessage_regs (z : Bool) (seed : Word) (s : State) :
    (startMessage z seed s).regs = initRegs seed := rfl

@[simp] theorem startMessage_buf (z : Bool) (seed : Word) (s : State) :
    (startMessage z seed s).buf = s.buf := rfl

@[simp] theorem startMessage_n (z : Bool) (seed : Word) (s : State) :
    (startMessage z seed s).n = 0 := rfl

@[simp] theorem startMessage_ph (z : Bool) (seed : Word) (s : State) :
    (startMessage z seed s).ph = .absorb := rfl

@[simp] theorem startMessage_z (z : Bool) (seed : Word) (s : State) :
    (startMessage z seed s).z = z := rfl

@[simp] theorem startMessage_err (z : Bool) (seed : Word) (s : State) :
    (startMessage z seed s).err = s.err := rfl

@[simp] theorem startMessage_hasScan (z : Bool) (seed : Word) (s : State) :
    (startMessage z seed s).hasScan = s.hasScan := rfl

@[simp] theorem startMessage_host (z : Bool) (seed : Word) (s : State) :
    (startMessage z seed s).host = s.host := rfl

@[simp] theorem startMessage_rsp (z : Bool) (seed : Word) (s : State) :
    (startMessage z seed s).rsp = some (rspWord okCode 0#32) := rfl

@[simp] theorem startMessage_resets (z : Bool) (seed : Word) (s : State) :
    (startMessage z seed s).resets = s.resets := rfl

@[simp] theorem block_regs (s : State) :
    (block s).regs = mix (absorb (bpack s) s.regs) := rfl

@[simp] theorem block_buf (s : State) :
    (block s).buf = s.buf := rfl

@[simp] theorem block_n (s : State) :
    (block s).n = s.n := rfl

@[simp] theorem block_ph (s : State) :
    (block s).ph = s.ph := rfl

@[simp] theorem block_z (s : State) :
    (block s).z = s.z := rfl

@[simp] theorem block_err (s : State) :
    (block s).err = s.err := rfl

@[simp] theorem block_hasScan (s : State) :
    (block s).hasScan = s.hasScan := rfl

@[simp] theorem block_host (s : State) :
    (block s).host = s.host := rfl

@[simp] theorem block_rsp (s : State) :
    (block s).rsp = s.rsp := rfl

@[simp] theorem block_resets (s : State) :
    (block s).resets = s.resets := rfl

@[simp] theorem takeEvent_regs (s : State) :
    (takeEvent s).regs = s.regs := rfl

@[simp] theorem takeEvent_buf (s : State) :
    (takeEvent s).buf = s.buf := rfl

@[simp] theorem takeEvent_n (s : State) :
    (takeEvent s).n = s.n := rfl

@[simp] theorem takeEvent_ph (s : State) :
    (takeEvent s).ph = s.ph := rfl

@[simp] theorem takeEvent_z (s : State) :
    (takeEvent s).z = s.z := rfl

@[simp] theorem takeEvent_err (s : State) :
    (takeEvent s).err = s.err := rfl

@[simp] theorem takeEvent_hasScan (s : State) :
    (takeEvent s).hasScan = s.hasScan := rfl

@[simp] theorem takeEvent_host (s : State) :
    (takeEvent s).host = s.host.tail := rfl

@[simp] theorem takeEvent_rsp (s : State) :
    (takeEvent s).rsp = s.rsp := rfl

@[simp] theorem takeEvent_resets (s : State) :
    (takeEvent s).resets = s.resets := rfl

@[simp] theorem presented_regs (program : List Instr) (s : State) :
    (presented program s).regs = s.regs := rfl

@[simp] theorem presented_buf (program : List Instr) (s : State) :
    (presented program s).buf = s.buf := rfl

@[simp] theorem presented_n (program : List Instr) (s : State) :
    (presented program s).n = s.n := rfl

@[simp] theorem presented_ph (program : List Instr) (s : State) :
    (presented program s).ph = s.ph := rfl

@[simp] theorem presented_z (program : List Instr) (s : State) :
    (presented program s).z = s.z := rfl

@[simp] theorem presented_err (program : List Instr) (s : State) :
    (presented program s).err = s.err := rfl

@[simp] theorem presented_hasScan (program : List Instr) (s : State) :
    (presented program s).hasScan = s.hasScan := rfl

@[simp] theorem presented_host (program : List Instr) (s : State) :
    (presented program s).host = programEvents program ++ s.host := rfl

@[simp] theorem presented_rsp (program : List Instr) (s : State) :
    (presented program s).rsp = s.rsp := rfl

@[simp] theorem presented_resets (program : List Instr) (s : State) :
    (presented program s).resets = s.resets := rfl

@[simp] theorem presentTableWord_regs (s : State) (nbits w : Nat) :
    (presentTableWord s nbits w).regs = s.regs := rfl

@[simp] theorem presentTableWord_buf (s : State) (nbits w : Nat) :
    (presentTableWord s nbits w).buf = s.buf := rfl

@[simp] theorem presentTableWord_n (s : State) (nbits w : Nat) :
    (presentTableWord s nbits w).n = s.n := rfl

@[simp] theorem presentTableWord_ph (s : State) (nbits w : Nat) :
    (presentTableWord s nbits w).ph = s.ph := rfl

@[simp] theorem presentTableWord_z (s : State) (nbits w : Nat) :
    (presentTableWord s nbits w).z = s.z := rfl

@[simp] theorem presentTableWord_err (s : State) (nbits w : Nat) :
    (presentTableWord s nbits w).err = s.err := rfl

@[simp] theorem presentTableWord_hasScan (s : State) (nbits w : Nat) :
    (presentTableWord s nbits w).hasScan = s.hasScan := rfl

@[simp] theorem presentTableWord_host (s : State) (nbits w : Nat) :
    (presentTableWord s nbits w).host = .command (BitVec.ofNat 36 (w % 2 ^ nbits)) :: s.host := rfl

@[simp] theorem presentTableWord_rsp (s : State) (nbits w : Nat) :
    (presentTableWord s nbits w).rsp = s.rsp := rfl

@[simp] theorem presentTableWord_resets (s : State) (nbits w : Nat) :
    (presentTableWord s nbits w).resets = s.resets := rfl

/-! TAIL and END write fields under a condition on N, so `regs` is stated with it and every other field holds by cases. -/

theorem tail_eq (s : State) :
    tail s = { s with
      regs := if 1 ≤ s.n.val then tadd (tpack s.n.val fun k => memRead k s) s.regs else s.regs
      n := 0 } := by
  unfold tail
  by_cases h : 1 ≤ s.n.val <;> simp [h]

theorem endMessage_eq (s : State) :
    endMessage s = { s with
      regs := final (if 1 ≤ s.n.val then tadd (tpack s.n.val fun k => memRead k s) s.regs else s.regs)
      n := 0
      ph := .done } := by
  simp only [endMessage, tail_eq]

@[simp] theorem tail_buf (s : State) : (tail s).buf = s.buf := by simp [tail_eq]

@[simp] theorem tail_n (s : State) : (tail s).n = 0 := by simp [tail_eq]

@[simp] theorem tail_ph (s : State) : (tail s).ph = s.ph := by simp [tail_eq]

@[simp] theorem tail_z (s : State) : (tail s).z = s.z := by simp [tail_eq]

@[simp] theorem tail_err (s : State) : (tail s).err = s.err := by simp [tail_eq]

@[simp] theorem tail_hasScan (s : State) : (tail s).hasScan = s.hasScan := by simp [tail_eq]

@[simp] theorem tail_host (s : State) : (tail s).host = s.host := by simp [tail_eq]

@[simp] theorem tail_rsp (s : State) : (tail s).rsp = s.rsp := by simp [tail_eq]

@[simp] theorem tail_resets (s : State) : (tail s).resets = s.resets := by simp [tail_eq]

@[simp] theorem endMessage_buf (s : State) : (endMessage s).buf = s.buf := by simp [endMessage_eq]

@[simp] theorem endMessage_n (s : State) : (endMessage s).n = 0 := by simp [endMessage_eq]

@[simp] theorem endMessage_ph (s : State) : (endMessage s).ph = .done := by simp [endMessage_eq]

@[simp] theorem endMessage_z (s : State) : (endMessage s).z = s.z := by simp [endMessage_eq]

@[simp] theorem endMessage_err (s : State) : (endMessage s).err = s.err := by simp [endMessage_eq]

@[simp] theorem endMessage_hasScan (s : State) : (endMessage s).hasScan = s.hasScan := by simp [endMessage_eq]

@[simp] theorem endMessage_host (s : State) : (endMessage s).host = s.host := by simp [endMessage_eq]

@[simp] theorem endMessage_rsp (s : State) : (endMessage s).rsp = s.rsp := by simp [endMessage_eq]

@[simp] theorem endMessage_resets (s : State) : (endMessage s).resets = s.resets := by simp [endMessage_eq]

end Sys2Proof.Machine
end

