-- ==== Sys2Proof/Laws/Ops.lean ====
section
/-! SUPPORT. For each shared operation, once, everything it can do; and the fields of words. -/

namespace Sys2Proof.Machine

/-- The phase check answers one of three ways (60_exceptions.md R193). -/
theorem inMessage_cases (effect : State → State) (s : State) :
    (s.ph = .absorb ∧ inMessage effect s = respond 0#32 (effect s)) ∨
    (s.ph = .done ∧ s.z = true ∧ inMessage effect s = respond 0#32 s) ∨
    ((s.ph = .idle ∨ (s.ph = .done ∧ s.z = false)) ∧ inMessage effect s = reject .eSeq s) := by
  unfold inMessage
  cases hp : s.ph <;> cases hz : s.z <;> simp

theorem inMessage_absorb (effect : State → State) (s : State) (h : s.ph = .absorb) :
    inMessage effect s = respond 0#32 (effect s) := by
  simp [inMessage, h]

/-- A byte that ends the message (41_scan_frontend.md R103). -/
theorem pushByte_ends (byte : Byte) (s : State) (h : scan byte s = true) :
    pushByte byte s = endMessage s := by
  simp [pushByte, h]

/-- A byte that neither ends the message nor fills the buffer (41_scan_frontend.md R102, R103). -/
theorem pushByte_stores (byte : Byte) (s : State) (h : scan byte s = false) (room : s.n.val < 11) :
    pushByte byte s = { memWrite s.n byte s with n := ⟨s.n.val + 1, by omega⟩ } := by
  have hne : ¬ s.n.val + 1 = 12 := by omega
  simp [pushByte, h, bufw, hne]

/-- The byte that fills the buffer (41_scan_frontend.md R103, 42_block_mixer.md R129). -/
theorem pushByte_fills (byte : Byte) (s : State) (h : scan byte s = false) (full : s.n.val = 11) :
    pushByte byte s = { block (memWrite s.n byte s) with n := 0 } := by
  simp [pushByte, h, bufw, full]

/-- The three cases are all there is. -/
theorem pushByte_cases (byte : Byte) (s : State) :
    (scan byte s = true ∧ pushByte byte s = endMessage s) ∨
    (scan byte s = false ∧ s.n.val = 11 ∧ pushByte byte s = { block (memWrite s.n byte s) with n := 0 }) ∨
    (scan byte s = false ∧ ∃ h : s.n.val < 11,
      pushByte byte s = { memWrite s.n byte s with n := ⟨s.n.val + 1, by omega⟩ }) := by
  cases hs : scan byte s
  · by_cases hn : s.n.val = 11
    · exact .inr (.inl ⟨rfl, hn, pushByte_fills byte s hs hn⟩)
    · have room : s.n.val < 11 := by have := s.n.isLt; omega
      exact .inr (.inr ⟨rfl, room, pushByte_stores byte s hs room⟩)
  · exact .inl ⟨rfl, pushByte_ends byte s hs⟩

/-- What PUSHBYTE never writes (41_scan_frontend.md R103). -/
theorem pushByte_keeps (byte : Byte) (s : State) :
    (pushByte byte s).z = s.z ∧ (pushByte byte s).err = s.err ∧ (pushByte byte s).hasScan = s.hasScan ∧
    (pushByte byte s).host = s.host ∧ (pushByte byte s).rsp = s.rsp ∧ (pushByte byte s).resets = s.resets := by
  rcases pushByte_cases byte s with ⟨_, e⟩ | ⟨_, _, e⟩ | ⟨_, _, e⟩ <;> rw [e] <;> simp

@[simp] theorem pushBytes_nil (s : State) : pushBytes [] s = s := rfl

/-- One byte of a PUSHW, then the others (41_scan_frontend.md R105). -/
theorem pushBytes_cons (byte : Byte) (bytes : List Byte) (s : State) :
    pushBytes (byte :: bytes) s = pushBytes bytes (if s.ph = .absorb then pushByte byte s else s) := rfl

/-- Once the phase has left ABSORB no further byte of a PUSHW is delivered (41_scan_frontend.md R105). -/
theorem pushBytes_ended (bytes : List Byte) (s : State) (h : s.ph ≠ .absorb) : pushBytes bytes s = s := by
  induction bytes with
  | nil => rfl
  | cons byte rest ih => rw [pushBytes_cons, if_neg h, ih]

theorem pushBytes_keeps (bytes : List Byte) (s : State) :
    (pushBytes bytes s).z = s.z ∧ (pushBytes bytes s).err = s.err ∧ (pushBytes bytes s).hasScan = s.hasScan ∧
    (pushBytes bytes s).host = s.host ∧ (pushBytes bytes s).rsp = s.rsp ∧
    (pushBytes bytes s).resets = s.resets := by
  induction bytes generalizing s with
  | nil => simp
  | cons byte rest ih =>
    rw [pushBytes_cons]
    by_cases h : s.ph = .absorb
    · rw [if_pos h]
      obtain ⟨h1, h2, h3, h4, h5, h6⟩ := ih (pushByte byte s)
      obtain ⟨k1, k2, k3, k4, k5, k6⟩ := pushByte_keeps byte s
      exact ⟨h1.trans k1, h2.trans k2, h3.trans k3, h4.trans k4, h5.trans k5, h6.trans k6⟩
    · rw [if_neg h]
      exact ih s

/-- No command stops the machine: every meaning answers a next state (60_exceptions.md R195, R198). -/
theorem exec_next (i : Instr) (s : State) : ∃ t, exec i s = .next t := by
  cases i <;> simp only [exec, execNop, execStartz, execStartn, execPushb, execPushw, execFinish, execRead,
    execStatus, execClear, Host.Outcome.next.injEq, exists_eq']
  · split <;> exact ⟨_, rfl⟩
  · split <;> exact ⟨_, rfl⟩

@[simp] theorem step_nothing (s : State) (h : s.host = []) : step s = .next s := by
  simp [step, stepEvent, h]

@[simp] theorem step_reset (s : State) (later : List HostEvent) :
    step { s with host := .reset :: later } = .next (applyReset { s with host := later }) := rfl

@[simp] theorem step_command (s : State) (w : CmdWord) (later : List HostEvent) :
    step { s with host := .command w :: later } = acceptCommand w { s with host := later } := rfl

/-- Every event the host presents is answered by a next state. -/
theorem acceptCommand_next (w : CmdWord) (s : State) : ∃ t, acceptCommand w s = .next t := by
  unfold acceptCommand
  split
  · exact exec_next _ s
  · exact ⟨_, rfl⟩

/-- A 4-bit field above a 32-bit one, bit by bit. -/
theorem getLsbD_append36 (x : BitVec 4) (y : Word) (i : Nat) :
    BitVec.getLsbD (w := 36) (x ++ y) i = if i < 32 then y.getLsbD i else x.getLsbD (i - 32) :=
  BitVec.getLsbD_append

theorem high_of_append36 (x : BitVec 4) (y : Word) : BitVec.extractLsb' (n := 36) 32 4 (x ++ y) = x := by
  apply BitVec.eq_of_getLsbD_eq
  intro i h
  simp [getLsbD_append36, h]

theorem low_of_append36 (x : BitVec 4) (y : Word) : BitVec.extractLsb' (n := 36) 0 32 (x ++ y) = y := by
  apply BitVec.eq_of_getLsbD_eq
  intro i h
  simp [getLsbD_append36, h]

@[simp] theorem codeOf_rspWord (code : BitVec 4) (data : Word) : codeOf (rspWord code data) = code :=
  high_of_append36 code data

@[simp] theorem dataOf_rspWord (code : BitVec 4) (data : Word) : dataOf (rspWord code data) = data :=
  low_of_append36 code data

@[simp] theorem opOf_cmdWord (op : BitVec 4) (arg : Word) : opOf (cmdWord op arg) = op :=
  high_of_append36 op arg

@[simp] theorem argOf_cmdWord (op : BitVec 4) (arg : Word) : argOf (cmdWord op arg) = arg :=
  low_of_append36 op arg

/-- A command word is its two fields (30_encoding.md R65). -/
theorem cmdWord_opOf_argOf (w : CmdWord) : cmdWord (opOf w) (argOf w) = w := by
  apply BitVec.eq_of_getLsbD_eq
  intro i h
  by_cases hi : i < 32
  · simp [cmdWord, opOf, argOf, getLsbD_append36, hi]
  · have h4 : i - 32 < 4 := by omega
    have he : 32 + (i - 32) = i := by omega
    simp [cmdWord, opOf, argOf, getLsbD_append36, hi, h4, he]

/-- The fields of a command are those of its word (30_encoding.md R67). -/
theorem opOf_encode (i : Instr) : opOf (encode i) = i.opcode := opOf_cmdWord _ _

theorem argOf_encode (i : Instr) : argOf (encode i) = i.operand := argOf_cmdWord _ _

end Sys2Proof.Machine
end

