-- ==== Sys2Proof/Laws/PerInstr.lean ====
section
/-! SUPPORT. The family made per command: what a command's encoding holds, field by field. -/

namespace Sys2Proof.Laws

/-- The encoding of a command holds its opcode, which no row beyond the map has, and its operand, in which no reserved
bit is set (30_encoding.md R65, R67, R72). -/
def EncodedFields.Statement (i : Instr) : Prop :=
  opOf (encode i) = i.opcode ∧ argOf (encode i) = i.operand ∧ i.opcode.toNat < 9 ∧
    reservedArgSet i.opcode i.operand = false

/-- A byte in the low bits of a word leaves the bits above it zero. -/
theorem high_of_byte (byte : Byte) : (byte.setWidth 32).extractLsb' 8 24 = 0#24 := by
  apply BitVec.eq_of_getLsbD_eq
  intro i _
  simp

theorem EncodedFields.nop : EncodedFields.Statement .nop :=
  ⟨Machine.opOf_encode _, Machine.argOf_encode _, by simp [Instr.opcode], rfl⟩

theorem EncodedFields.startz (seed : Word) : EncodedFields.Statement (.startz seed) :=
  ⟨Machine.opOf_encode _, Machine.argOf_encode _, by simp [Instr.opcode], rfl⟩

theorem EncodedFields.startn (seed : Word) : EncodedFields.Statement (.startn seed) :=
  ⟨Machine.opOf_encode _, Machine.argOf_encode _, by simp [Instr.opcode], rfl⟩

theorem EncodedFields.pushb (byte : Byte) : EncodedFields.Statement (.pushb byte) :=
  ⟨Machine.opOf_encode _, Machine.argOf_encode _, by simp [Instr.opcode], by
    simp [reservedArgSet, Instr.opcode, Instr.operand, high_of_byte]⟩

theorem EncodedFields.pushw (word : Word) : EncodedFields.Statement (.pushw word) :=
  ⟨Machine.opOf_encode _, Machine.argOf_encode _, by simp [Instr.opcode], rfl⟩

theorem EncodedFields.finish : EncodedFields.Statement .finish :=
  ⟨Machine.opOf_encode _, Machine.argOf_encode _, by simp [Instr.opcode], rfl⟩

theorem EncodedFields.read : EncodedFields.Statement .read :=
  ⟨Machine.opOf_encode _, Machine.argOf_encode _, by simp [Instr.opcode], rfl⟩

theorem EncodedFields.status : EncodedFields.Statement .status :=
  ⟨Machine.opOf_encode _, Machine.argOf_encode _, by simp [Instr.opcode], rfl⟩

theorem EncodedFields.clear : EncodedFields.Statement .clear :=
  ⟨Machine.opOf_encode _, Machine.argOf_encode _, by simp [Instr.opcode], rfl⟩

end Sys2Proof.Laws
end

