-- ==== Sys2Proof/Tests/Slice0.lean ====
section
/-! SUPPORT. The model's own tests, expected values from 95_test_vectors.md and the rules named, and for every statement
with hypotheses a witness that they can be met together. -/

namespace Sys2Proof.Machine.Tests

/-! ## Helpers -/

/-- The twelve lanes `a` to `l`. -/
def letters : Memory := (List.range 12).map fun k => (k, BitVec.ofNat 8 (0x61 + k))

/-- In ABSORB, just started with seed 0, with `n` of the letters in BUF. -/
def absorbing (z : Bool) (n : Fin 12) : State :=
  { State.reset with regs := initRegs 0#32, ph := .absorb, z := z, n := n, buf := letters }

/-- In DONE, with the registers of 95_test_vectors.md section 4.7. -/
def finished (z : Bool) : State :=
  { State.reset with regs := ⟨0x11111111#32, 0x22222222#32, 0x33333333#32⟩, ph := .done, z := z }

/-- The state a step or a meaning leaves. -/
def left (o : Host.Outcome State Fault Refusal) : Option State :=
  match o with
  | .next t => some t
  | .fault _ => none
  | .refused _ => none

/-- One step on a presented word. -/
def sent (w : CmdWord) (s : State) : Option State := left (step { s with host := [.command w] })

/-! ## WellFormed and decoding -/

theorem test_wellFormed_refuses_startz_without_frontend : Instr.wellFormed false (.startz 0#32) = false := by decide

theorem test_wellFormed_accepts_startn_without_frontend : Instr.wellFormed false (.startn 0#32) = true := by decide

/-- Words of 30_encoding.md R67, written field by field: OP, then ARG. -/
theorem test_decode_nop : decode true 0b0000_00000000000000000000000000000000#36 = .ok .nop := by decide

theorem test_decode_startz : decode true 0b0001_11111111111111111111111111111110#36 = .ok (.startz 0xfffffffe#32) := by
  decide

theorem test_decode_startn : decode true 0b0010_11011110101011011011111011101111#36 = .ok (.startn 0xdeadbeef#32) := by
  decide

theorem test_decode_pushb : decode true 0b0011_00000000000000000000000001001000#36 = .ok (.pushb 0x48#8) := by decide

theorem test_decode_pushw : decode true 0b0100_01100011000000000110001001100001#36 = .ok (.pushw 0x63006261#32) := by
  decide

theorem test_decode_finish : decode true 0b0101_00000000000000000000000000000000#36 = .ok .finish := by decide

theorem test_decode_read : decode true 0b0110_00000000000000000000000000000000#36 = .ok .read := by decide

theorem test_decode_status : decode true 0b0111_00000000000000000000000000000000#36 = .ok .status := by decide

theorem test_decode_clear : decode true 0b1000_00000000000000000000000000000000#36 = .ok .clear := by decide

/-- 30_encoding.md R71, R72; 60_exceptions.md R194. -/
theorem test_decode_rejects :
    decode true 0x900000000#36 = .error .eOp ∧ decode true 0xf00000001#36 = .error .eOp ∧
    decode false 0x1ffffffff#36 = .error .eOp ∧ decode true 0x500000001#36 = .error .eArg ∧
    decode true 0x380000041#36 = .error .eArg ∧ decode true 0x300000100#36 = .error .eArg := by decide

/-- The word of a table row runs as the first command after reset (log 2). -/
theorem test_withFetchWord_runs :
    (left (step (State.reset.withFetchWord 40 0x1ffffffff))).map (fun t => (t.ph, t.z, t.regs.c)) =
      some (.absorb, true, 0xffffffff#32) ∧
    decodeTableWord 40 0x1ffffffff = some (.startz 0xffffffff#32) ∧ decodeTableWord 40 0x1000000000 = none := by decide

/-! ## Micro-operations -/

/-- 95_test_vectors.md section 4.1. -/
theorem test_rot :
    [4, 6, 8, 11, 14, 16, 19, 24, 25].map (rot 0x12345678#32) =
      [0x23456781#32, 0x8d159e04#32, 0x34567812#32, 0xa2b3c091#32, 0x159e048d#32, 0x56781234#32, 0xb3c091a2#32,
        0x78123456#32, 0xf02468ac#32] := by decide

/-- 95_test_vectors.md section 4.4, each line alone. -/
theorem test_mix_lines :
    [mix1, mix2, mix3, mix4, mix5, mix6].map (· ⟨0x01234567#32, 0x89abcdef#32, 0xdeadbeef#32⟩) =
      [⟨0xc8ae6885#32, 0x89abcdef#32, 0x68598cde#32⟩, ⟨0xdfd10456#32, 0xc059d148#32, 0xdeadbeef#32⟩,
        ⟨0x01234567#32, 0x8acf1356#32, 0xfecc1e89#32⟩, ⟨0x9c9a58d5#32, 0x89abcdef#32, 0x68598cde#32⟩,
        ⟨0xdfd10456#32, 0xa3b08192#32, 0xdeadbeef#32⟩, ⟨0x01234567#32, 0x8acf1356#32, 0xcfbd2ff8#32⟩] := by decide

/-- 95_test_vectors.md section 4.6, each line alone. -/
theorem test_final_lines :
    [fin1, fin2, fin3, fin4, fin5, fin6, fin7].map (· ⟨0x01234567#32, 0x89abcdef#32, 0xdeadbeef#32⟩) =
      [⟨0x01234567#32, 0x89abcdef#32, 0x638a9096#32⟩, ⟨0x71977c93#32, 0x89abcdef#32, 0xdeadbeef#32⟩,
        ⟨0x01234567#32, 0xba8641fe#32, 0xdeadbeef#32⟩, ⟨0x01234567#32, 0x89abcdef#32, 0x8916e955#32⟩,
        ⟨0xf4b30c8b#32, 0x89abcdef#32, 0xdeadbeef#32⟩, ⟨0x01234567#32, 0xb72ec840#32, 0xdeadbeef#32⟩,
        ⟨0x01234567#32, 0x89abcdef#32, 0x677cc733#32⟩] := by decide

/-- 95_test_vectors.md section 4.5: the tail 01 02 .. 0b with 11, 10, 7 and 1 of its bytes. -/
theorem test_tpack :
    [11, 10, 7, 1].map (tpack · fun k => BitVec.ofNat 8 (k.val + 1)) =
      [⟨0x04030201#32, 0x08070605#32, 0x000b0a09#32⟩, ⟨0x04030201#32, 0x08070605#32, 0x00000a09#32⟩,
        ⟨0x04030201#32, 0x00070605#32, 0x00000000#32⟩, ⟨0x00000001#32, 0x00000000#32, 0x00000000#32⟩] := by decide

/-- 95_test_vectors.md section 3.1: the first L letters, seed 0xdeadbeef, for L = 0, 11, 12, 13. -/
theorem test_hash_lengths :
    [0, 11, 12, 13].map (fun len => hashOf ((List.range len).map fun k => BitVec.ofNat 8 (0x61 + k)) 0xdeadbeef#32) =
      [0xed147e74#32, 0xea23e586#32, 0x0873a9a2#32, 0xbcfd90b9#32] := by decide

/-- 95_test_vectors.md section 3.4: bytes of 0x80 and above are zero-extended. -/
theorem test_hash_high_bytes :
    hashOf (List.replicate 13 0xff#8) 0x12345678#32 = 0xdcd67c16#32 ∧
    hashOf (List.replicate 11 0xff#8) 0#32 = 0x54354cdc#32 := by decide

/-! ## Commands: words, responses and states of 95_test_vectors.md sections 3, 4.7 and 5 -/

theorem test_nop_answers :
    (sent 0x000000000#36 (absorbing true 5)).map (fun t => (t.rsp, t.n, t.ph)) =
      some (some 0x000000000#36, 5, .absorb) := by decide

theorem test_nop_with_an_operand_is_rejected :
    (sent 0x000000001#36 State.reset).map (fun t => (t.rsp, t.err)) = some (some 0x200000000#36, 2#2) := by decide

theorem test_startz_starts :
    (sent 0x1ffffffff#36 State.reset).map (fun t => (t.rsp, t.regs, t.ph, t.z)) =
      some (some 0x000000000#36, ⟨0x9e3779b9#32, 0x9e3779b9#32, 0xffffffff#32⟩, .absorb, true) := by decide

theorem test_startz_without_frontend_is_rejected :
    (sent 0x100000000#36 { finished false with hasScan := false }).map (fun t => (t.rsp, t.err, t.ph)) =
      some (some 0x100000000#36, 1#2, .done) := by decide

/-- A START abandons a message and leaves ERR (40_session_init.md R92, 60_exceptions.md R197). -/
theorem test_startn_restarts :
    (sent 0x200000007#36 { absorbing true 5 with err := 3#2 }).map (fun t => (t.regs.c, t.n, t.z, t.err)) =
      some (7#32, 0, false, 3#2) := by decide

theorem test_pushb_stores :
    (sent 0x3000000ff#36 (absorbing true 5)).map (fun t => (memRead 5 t, memRead 6 t, t.n, t.rsp)) =
      some (0xff#8, 0x67#8, 6, some 0x000000000#36) := by decide

/-- The twelfth letter runs the block (section 3.2, length 12). -/
theorem test_pushb_runs_the_block :
    (sent 0x30000006c#36 (absorbing true 11)).map (fun t => (t.regs, t.n, t.ph)) =
      some (⟨0x822d72a7#32, 0x216d92b7#32, 0xb32f6cbc#32⟩, 0, .absorb) := by decide

/-- Bytes 61 62 00 63, seed 7: the third ends the message, the fourth is not delivered (program P3). -/
theorem test_pushw_stops_at_the_terminator :
    (sent 0x463006261#36 { absorbing true 0 with regs := initRegs 7#32 }).map (fun t => (t.regs.c, t.ph, t.n)) =
      some (0x85fe6197#32, .done, 0) := by decide

/-- Bytes 69 6a 6b 6c at N = 8 complete the block. -/
theorem test_pushw_runs_the_block :
    (sent 0x46c6b6a69#36 (absorbing false 8)).map (fun t => (t.regs.c, t.ph, t.n)) =
      some (0xb32f6cbc#32, .absorb, 0) := by decide

/-- Eleven letters (section 3.2, length 11). -/
theorem test_finish_finalizes :
    (sent 0x500000000#36 (absorbing false 11)).map (fun t => (t.regs, t.ph, t.n)) =
      some (⟨0x9370d0c0#32, 0x6d58608d#32, 0xbdc7f1ac#32⟩, .done, 0) := by decide

theorem test_finish_twice_in_n_mode_is_rejected :
    (sent 0x500000000#36 (finished false)).map (fun t => (t.rsp, t.err, t.regs.c)) =
      some (some 0x300000000#36, 3#2, 0x33333333#32) := by decide

theorem test_read_answers : (sent 0x600000000#36 (finished true)).map (·.rsp) = some (some 0x033333333#36) := by decide

theorem test_read_too_early_is_rejected :
    (sent 0x600000000#36 (absorbing true 5)).map (fun t => (t.rsp, t.err)) = some (some 0x300000000#36, 3#2) := by
  decide

theorem test_status_answers :
    (sent 0x700000000#36 (absorbing true 5)).map (·.rsp) = some (some 0x000000055#36) := by decide

/-- Section 4.8. -/
theorem test_status_shows_the_latch :
    (sent 0x700000000#36 { absorbing false 11 with err := 3#2 }).map (·.rsp) = some (some 0x0000003b1#36) := by decide

theorem test_clear_clears :
    (sent 0x800000000#36 { finished true with err := 3#2 }).map (fun t => (t.ph, t.z, t.err, t.regs.c)) =
      some (.idle, false, 0#2, 0x33333333#32) := by decide

theorem test_first_rejection_is_kept :
    (sent 0x900000000#36 { State.reset with err := 3#2 }).map (fun t => (t.rsp, t.err)) =
      some (some 0x100000000#36, 3#2) := by decide

/-- 70_reset_and_hazards.md R215, in the middle of a message. -/
theorem test_reset_is_taken :
    (left (step { absorbing true 5 with err := 2#2, host := [.reset] })).map (fun t => (t.ph, t.n, t.z, t.err, t.rsp)) =
      some (.idle, 0, false, 0#2, none) := by rfl

/-- 30_encoding.md R76, R77. -/
theorem test_text :
    assembleLine "STARTN 3735928559".toList = some [0x2deadbeef#36] ∧
    assembleLine "PUSHB 0x48 ; a byte".toList = some [0x300000048#36] ∧
    assembleLine ".cmd 0x900000000".toList = some [0x900000000#36] ∧
    assembleLine "PUSHB 256".toList = none ∧ assembleLine "NOP 0".toList = none := by decide

theorem test_pseudo_text :
    assembleLine "HASHZ \"ab\", 7".toList =
      some [0x100000007#36, 0x300000061#36, 0x300000062#36, 0x300000000#36, 0x600000000#36] := by decide

/-! ## Witnesses: hypotheses that are met -/

theorem witness_DecodeOfEncodeIsTheCommand :
    Instr.wellFormed true (.startz 0xffffffff#32) = true ∧ Instr.wellFormed false (.pushb 0xff#8) = true := by decide

theorem witness_DecodedWordIsItsEncoding : decode false 0x3000000ff#36 = .ok (.pushb 0xff#8) := by decide

theorem witness_OpcodeMapSelectsTheCommand :
    (∃ row ∈ opcodeMap, opOf 0x300000141#36 = opOf row.value ∧ 0x300000141#36 &&& row.mask ≠ row.value) ∧
    9 ≤ (opOf 0x900000000#36).toNat ∧ 9 ≤ (opOf 0xfffffffff#36).toNat ∧
    decode true 0x4ffffffff#36 = .ok (.pushw 0xffffffff#32) := by decide

theorem witness_RotationMovesEveryBit :
    (31 < 32 ∧ 1 ≤ 1 ∧ 1 ≤ 31) ∧ (rot 0x80000000#32 1).getLsbD ((31 + 1) % 32) = true := by decide

theorem witness_TailWordsAreLittleEndian : 1 ≤ 1 ∧ 1 ≤ 11 ∧ 11 ≤ 11 := by decide

theorem witness_EqualLanesAreEqualBuffers :
    Memory.wf letters = true ∧ Memory.wf [(0, 0x01#8), (11, 0xff#8)] = true := by decide

theorem witness_NothingPresentedChangesNothing : (absorbing true 5).host = [] := by decide

theorem witness_StepRunsTheDecodedCommand : decode (absorbing true 5).hasScan 0x300000000#36 = .ok (.pushb 0#8) := by
  decide

theorem witness_ReservedOpcodeIsRejected :
    9 ≤ (opOf 0x900000000#36).toNat ∧ 9 ≤ (opOf 0xfffffffff#36).toNat ∧
    opOf 0x100000000#36 = 1#4 ∧ { State.reset with hasScan := false }.hasScan = false := by decide

theorem witness_ReservedOperandBitsAreRejected :
    (∀ w ∈ [0x000000001#36, 0x580000000#36, 0x600000001#36, 0x7ffffffff#36, 0x800000001#36],
      opOf w ∈ [0#4, 5#4, 6#4, 7#4, 8#4] ∧ argOf w ≠ 0#32) ∧
    opOf 0x300000100#36 = 3#4 ∧ (argOf 0x300000100#36).extractLsb' 8 24 ≠ 0#24 :=
  ⟨by simp [opOf, argOf], by decide, by decide⟩

theorem witness_LegalityOfCommandsInPhases :
    Instr.wellFormed (finished false).hasScan .finish = true ∧ legality .finish .done false = .seq ∧
    legality .finish .done true = .ignored ∧ legality .finish .absorb true = .ok ∧
    { State.reset with hasScan := false }.hasScan = false := by decide

theorem witness_RejectionsChangeNothing :
    ∃ t r, step { finished false with host := [.command 0x500000000#36] } = .next t ∧ t.rsp = some r ∧
      codeOf r ≠ 0#4 :=
  ⟨_, 0x300000000#36, rfl, rfl, by decide⟩

theorem witness_StartBeginsAMessage : State.reset.hasScan = true := by decide

/-- The first lane, and the last one that does not fill the buffer, in both modes. -/
theorem witness_PushbStoresTheByte :
    ((absorbing false 0).ph = .absorb ∧ (absorbing false 0).z = false ∧ (absorbing false 0).n.val < 11) ∧
    ((absorbing true 10).ph = .absorb ∧ 0xff#8 ≠ 0x00#8 ∧ (absorbing true 10).n.val < 11) := by decide

theorem witness_TwelfthByteRunsTheBlock :
    ((absorbing false 11).ph = .absorb ∧ (absorbing false 11).z = false ∧ (absorbing false 11).n = 11) ∧
    ((absorbing true 11).ph = .absorb ∧ 0x6c#8 ≠ 0x00#8 ∧ (absorbing true 11).n = 11) := by decide

theorem witness_EndingAMessageFinalizes :
    (absorbing false 0).ph = .absorb ∧ (absorbing true 11).ph = .absorb ∧ (absorbing true 11).z = true := by decide

/-- The last count at which the block does not run, the first at which it does, and the greatest. -/
theorem witness_PushwStoresFourBytes :
    (absorbing false 7).ph = .absorb ∧ (absorbing false 7).z = false ∧ (absorbing false 7).n.val + 4 < 12 ∧
    (absorbing true 8).ph = .absorb ∧ (∀ j, j < 4 → (0x6c6b6a69#32).extractLsb' (8 * j) 8 ≠ 0x00#8) ∧
    12 ≤ (absorbing true 8).n.val + 4 ∧ 12 ≤ (absorbing false 11).n.val + 4 := by decide

theorem witness_ReadAnswersTheResult : (finished true).ph = .done ∧ (absorbing true 5).ph ≠ .done := by decide

theorem witness_RepeatingTheseCommandsChangesNothing : Instr.read = .nop ∨ Instr.read = .read ∨ Instr.read = .status ∨
    Instr.read = .clear ∨ ∃ seed, Instr.read = .startz seed ∨ Instr.read = .startn seed :=
  .inr (.inl rfl)

theorem witness_OnlyTheseEventsWrite :
    ∃ t, step { absorbing true 11 with host := [.command 0x30000006c#36] } = .next t ∧
      t.regs ≠ (absorbing true 11).regs ∧ t.n ≠ (absorbing true 11).n :=
  ⟨_, rfl, by decide, by decide⟩

theorem witness_OnlyTheseEventsWrite_latch :
    ∃ t, step { finished true with err := 3#2, host := [.command 0x800000000#36] } = .next t ∧
      t.err ≠ 3#2 ∧ t.z ≠ (finished true).z :=
  ⟨_, rfl, by decide, by decide⟩

theorem witness_OnlyTheseEventsWrite_buffer :
    ∃ t, step { absorbing true 5 with host := [.command 0x3000000ff#36] } = .next t ∧
      t.buf ≠ (absorbing true 5).buf :=
  ⟨_, rfl, by decide⟩

/-- What ends a message: FINISH, PUSHB 0x00, and a PUSHW with 0x00 as its last byte; what abandons one. -/
theorem witness_DoneRisesAtTheEndOfAMessage_words :
    (absorbing false 0).ph = .absorb ∧ decode true 0x500000000#36 = .ok .finish ∧
    ((absorbing true 11).ph = .absorb ∧ (absorbing true 11).z = true) ∧
    decode true 0x300000000#36 = .ok (.pushb 0x00#8) ∧ 0x00#8 ∈ carried (.pushb 0x00#8) ∧
    decode true 0x400636261#36 = .ok (.pushw 0x00636261#32) ∧ 0x00#8 ∈ carried (.pushw 0x00636261#32) ∧
    decode true 0x800000000#36 = .ok .clear ∧ decode true 0x100000007#36 = .ok (.startz 7#32) := by decide

theorem witness_DoneRisesAtTheEndOfAMessage :
    (doneLine (absorbing true 5) = false ∧
      ∃ t, step { absorbing true 5 with host := [.command 0x300000000#36] } = .next t ∧ doneLine t = true) ∧
    (doneLine (finished true) = true ∧
      ∃ t, step { finished true with host := [.command 0x800000000#36] } = .next t ∧ doneLine t = false) :=
  ⟨⟨rfl, _, rfl, rfl⟩, rfl, _, rfl, rfl⟩

theorem witness_InvariantsHoldBetweenCommands :
    HoldsBetweenCommands { absorbing true 11 with host := [.command 0x30000006c#36] } ∧
    ∃ t, step { absorbing true 11 with host := [.command 0x30000006c#36] } = .next t :=
  ⟨by decide, _, rfl⟩

/-- Two states with different stale lanes. -/
theorem witness_UnspecifiedValuesAreNeverObserved :
    SameSpecified { absorbing true 2 with host := [.command 0x500000000#36] }
      { absorbing true 2 with buf := [(0, 0x61#8), (1, 0x62#8)], host := [.command 0x500000000#36] } ∧
    ∃ s', step { absorbing true 2 with host := [.command 0x500000000#36] } = .next s' :=
  ⟨⟨rfl, rfl, rfl, rfl, rfl, rfl, rfl, fun _ => rfl, fun _ => rfl, by decide⟩, _, rfl⟩

theorem witness_DeliveryFollowsTheHashLoop :
    (∀ i ∈ [Instr.pushw 0x64636261#32, .status, .pushb 0x65#8], delivers i = true) ∧ State.reset.hasScan = true ∧
    0x00#8 ∉ carriedBy [Instr.pushw 0x64636261#32, .status, .pushb 0x65#8] := by decide

theorem witness_ZModeMessagesComputeHash32 :
    State.reset.hasScan = true ∧ (∀ i ∈ [Instr.nop, .pushw 0x63006261#32, .pushb 0x64#8], delivers i = true) ∧
    (∀ i ∈ [Instr.status], i = .nop ∨ i = .status) ∧
    0x00#8 ∈ carriedBy [Instr.nop, .pushw 0x63006261#32, .pushb 0x64#8] ∧
    delivers (.pushb 0x64#8) = true ∧ 0x00#8 ∉ carriedBy [Instr.pushb 0x64#8] := by decide

theorem witness_NModeMessagesComputeHash :
    (∀ i ∈ [Instr.pushw 0x63006261#32, .status], delivers i = true) ∧ (∀ i ∈ [Instr.nop], i = .nop ∨ i = .status) ∧
    0x00#8 ∉ [0x61#8, 0x62#8] := by decide

theorem witness_ResultIsIndependentOfHistory :
    (absorbing true 5).hasScan = true ∧ (finished false).hasScan = true ∧
    (∀ i ∈ [Instr.pushw 0x64636261#32], delivers i = true) ∧
    (∀ i ∈ [Instr.pushb 0x61#8, .nop, .pushb 0x62#8, .pushb 0x63#8, .pushb 0x64#8], delivers i = true) ∧
    carriedBy [Instr.pushw 0x64636261#32] =
      carriedBy [Instr.pushb 0x61#8, .nop, .pushb 0x62#8, .pushb 0x63#8, .pushb 0x64#8] := by decide

theorem witness_CommandsAfterTheTerminatorAreIgnored :
    (finished true).ph = .done ∧ (finished true).z = true ∧ [Instr.finish, .pushb 0x64#8, .pushw 0#32] ≠ [] ∧
    ∀ i ∈ [Instr.finish, .pushb 0x64#8, .pushw 0#32],
      i = .finish ∨ (∃ byte, i = .pushb byte) ∨ ∃ word, i = .pushw word := by
  refine ⟨rfl, rfl, by decide, ?_⟩
  simp

theorem witness_PseudoCommandsHashTheText : State.reset.hasScan = true ∧ 0x00#8 ∉ [0x61#8, 0xff#8] := by decide

end Sys2Proof.Machine.Tests
end

section
/-! The step on a word that decodes (00_scope.md R8). -/

namespace Sys2Proof.Machine

/-- Past steps 1 and 2 of decoding, accepting a command word is the command itself (30_encoding.md R75). -/
theorem acceptCommand_of_decode_ok {w : CmdWord} {s : State} {i : Instr} (h : decode s.hasScan w = .ok i) :
    acceptCommand w s = exec i s := by
  simp only [acceptCommand, h]

/-- Settles O18: taking the word off the host's list leaves the configuration the word is decoded under. -/
theorem stepRunsTheDecodedCommand : Obligations.StepRunsTheDecodedCommand := by
  intro s w later i hdecode
  calc step { s with host := .command w :: later }
      = acceptCommand w { s with host := later } := step_command s w later
    _ = exec i { s with host := later } := acceptCommand_of_decode_ok hdecode

end Sys2Proof.Machine
end

section
/-! What a step can do, once for every command: the equation of each command's meaning, and the inversion of one command
and of one step into the few named updates of the state (10_state.md R20 to R29). -/

namespace Sys2Proof.Machine

/-- The state after CLEAR, its response apart (40_session_init.md R93). -/
def cleared (s : State) : State := { s with ph := .idle, n := 0, z := false, err := 0#2 }

/-- The commands that begin a message (40_session_init.md R91, R92). -/
def starting (z : Bool) (seed : Word) : Instr := if z then .startz seed else .startn seed

theorem exec_nop (s : State) : exec .nop s = .next (respond 0#32 s) := rfl

theorem exec_startz (seed : Word) (s : State) :
    exec (.startz seed) s = .next (if s.hasScan then startMessage true seed s else reject .eOp s) := by
  cases h : s.hasScan <;> simp [exec, execStartz, h]

theorem exec_startn (seed : Word) (s : State) : exec (.startn seed) s = .next (startMessage false seed s) := rfl

theorem exec_pushw (word : Word) (s : State) :
    exec (.pushw word) s = .next (inMessage (pushBytes (carried (.pushw word))) s) := rfl

theorem exec_finish (s : State) : exec .finish s = .next (inMessage endMessage s) := rfl

theorem exec_read (s : State) :
    exec .read s = .next (if s.ph = .done then respond (ret s) s else reject .eSeq s) := by
  by_cases h : s.ph = .done <;> simp [exec, execRead, h]

theorem exec_status (s : State) : exec .status s = .next (respond (statusWord s) s) := rfl

theorem exec_clear (s : State) : exec .clear s = .next (respond 0#32 (cleared s)) := rfl

/-- The phase check runs its effect in ABSORB only. -/
theorem inMessage_congr {effect effect' : State → State} {s : State}
    (same : s.ph = .absorb → effect s = effect' s) : inMessage effect s = inMessage effect' s := by
  rcases inMessage_cases effect s with ⟨hp, e⟩ | ⟨hp, hz, e⟩ | ⟨hp | ⟨hp, hz⟩, e⟩
  · rw [e, same hp, inMessage_absorb effect' s hp]
  all_goals simp [inMessage, *]

/-- PUSHB is the delivery of the one byte it carries, so that it shares the laws of PUSHW (41_scan_frontend.md R105). -/
theorem exec_pushb (byte : Byte) (s : State) :
    exec (.pushb byte) s = .next (inMessage (pushBytes (carried (.pushb byte))) s) := by
  have single : s.ph = .absorb → pushByte byte s = pushBytes [byte] s := fun h => by simp [pushBytes_cons, h]
  exact congrArg Host.Outcome.next (inMessage_congr single)

/-- Everything one command can leave of a state: an answer or a rejection alone, a message begun, the control state
cleared, a message ended, or key bytes delivered. -/
inductive Effect (i : Instr) (s : State) : State → Prop
  | answers (data : Word) : Effect i s (respond data s)
  | rejects (r : Reject) : Effect i s (reject r s)
  | starts (z : Bool) (seed : Word) (command : i = starting z seed) (built : z = true → s.hasScan = true) :
      Effect i s (startMessage z seed s)
  | clears (command : i = .clear) : Effect i s (respond 0#32 (cleared s))
  | ends (command : i = .finish) (inAbsorb : s.ph = .absorb) : Effect i s (respond 0#32 (endMessage s))
  | delivers (command : (∃ byte, i = .pushb byte) ∨ ∃ word, i = .pushw word) (inAbsorb : s.ph = .absorb) :
      Effect i s (respond 0#32 (pushBytes (carried i) s))

/-- A command of a message answers or is rejected where the phase check does not let it run (60_exceptions.md R193). -/
theorem Effect.of_inMessage {i : Instr} {s : State} {effect : State → State}
    (runs : s.ph = .absorb → Effect i s (respond 0#32 (effect s))) : Effect i s (inMessage effect s) := by
  rcases inMessage_cases effect s with ⟨hp, e⟩ | ⟨_, _, e⟩ | ⟨_, e⟩ <;> rw [e]
  · exact runs hp
  · exact .answers _
  · exact .rejects _

/-- The meaning of a command has one of these effects. -/
theorem effect_of_exec {i : Instr} {s t : State} (h : exec i s = .next t) : Effect i s t := by
  cases i with
  | nop => cases h; exact .answers _
  | startz seed =>
    rw [exec_startz] at h
    split at h <;> cases h
    · exact .starts true seed rfl fun _ => by assumption
    · exact .rejects _
  | startn seed => cases h; exact .starts false seed rfl (by simp)
  | pushb byte =>
    rw [exec_pushb] at h
    cases h
    exact .of_inMessage (.delivers (.inl ⟨byte, rfl⟩))
  | pushw word => cases h; exact .of_inMessage (.delivers (.inr ⟨word, rfl⟩))
  | finish => cases h; exact .of_inMessage (.ends rfl)
  | read =>
    rw [exec_read] at h
    split at h <;> cases h
    · exact .answers _
    · exact .rejects _
  | status => cases h; exact .answers _
  | clear => cases h; exact .clears rfl

/-- Everything one step can do (00_scope.md R8, R9, 30_encoding.md R75, 70_reset_and_hazards.md R216). -/
inductive StepEffect (s : State) : State → Prop
  | nothing (unused : s.host = []) : StepEffect s s
  | resets (later : List HostEvent) (next : s.host = .reset :: later) : StepEffect s (applyReset (takeEvent s))
  | rejects (w : CmdWord) (later : List HostEvent) (r : Reject) (next : s.host = .command w :: later)
      (decoded : decode s.hasScan w = .error r) : StepEffect s (reject r (takeEvent s))
  | runs (w : CmdWord) (later : List HostEvent) (i : Instr) (t : State) (next : s.host = .command w :: later)
      (decoded : decode s.hasScan w = .ok i) (effect : Effect i (takeEvent s) t) : StepEffect s t

theorem step_of_host_cons {s : State} {e : HostEvent} {later : List HostEvent} (h : s.host = e :: later) :
    step s = acceptEvent e (takeEvent s) := by
  simp [step, stepEvent, h]

/-- A word that is no command is rejected with the code decoding gives (30_encoding.md R75). -/
theorem acceptCommand_of_decode_error {w : CmdWord} {s : State} {r : Reject} (h : decode s.hasScan w = .error r) :
    acceptCommand w s = .next (reject r s) := by
  simp only [acceptCommand, h]

theorem stepEffect_of_step {s t : State} (h : step s = .next t) : StepEffect s t := by
  match hh : s.host with
  | [] =>
    rw [step_nothing s hh] at h
    cases h
    exact .nothing hh
  | .reset :: later =>
    rw [step_of_host_cons hh] at h
    cases h
    exact .resets later hh
  | .command w :: later =>
    have accepted : acceptCommand w (takeEvent s) = .next t := (step_of_host_cons hh).symm.trans h
    cases hd : decode s.hasScan w with
    | error r =>
      rw [acceptCommand_of_decode_error (s := takeEvent s) hd] at accepted
      cases accepted
      exact .rejects w later r hh hd
    | ok i =>
      rw [acceptCommand_of_decode_ok (s := takeEvent s) hd] at accepted
      exact .runs w later i t hh hd (effect_of_exec accepted)

end Sys2Proof.Machine
end

section
/-! The lanes of BUF after one byte has been stored (10_state.md R25, 20_memory.md R46), and delivery as an induction
over the bytes of a command (41_scan_frontend.md R105). -/

namespace Sys2Proof.Machine

theorem memRead_memWrite (k j : Fin 12) (v : Byte) (s : State) :
    memRead j (memWrite k v s) = if j = k then v else memRead j s := by
  by_cases h : j = k
  · simp [h]
  · simp [h, memRead_memWrite_other k j v s h]

/-- The byte ends the message (41_scan_frontend.md R100). -/
theorem scan_iff (byte : Byte) (s : State) : scan byte s = true ↔ s.z = true ∧ byte = 0x00#8 := by
  simp [scan]

/-- A property of the block that the delivery of each byte in ABSORB keeps is kept by the delivery of all of them. -/
theorem pushBytes_induction {P : State → Prop} (bytes : List Byte) {s : State}
    (pushed : ∀ byte u, u.ph = .absorb → P u → P (pushByte byte u)) (h : P s) : P (pushBytes bytes s) := by
  induction bytes generalizing s with
  | nil => exact h
  | cons byte rest ih =>
    rw [pushBytes_cons]
    by_cases hp : s.ph = .absorb
    · rw [if_pos hp]
      exact ih (pushed byte s hp h)
    · rw [if_neg hp]
      exact ih h

end Sys2Proof.Machine
end

section
/-! The invariants of 10_state.md R35: at reset, and kept by every step. -/

namespace Sys2Proof.Machine

/-- With N = 0 there is no valid lane, and the invariants are about Z and the form of BUF alone. -/
theorem holds_of_empty {s : State} (form : Memory.wf s.buf = true) (empty : s.n = 0)
    (idle : s.ph = .idle → s.z = false) (frontend : s.hasScan = false → s.z = false) : HoldsBetweenCommands s := by
  have noLane : ∀ k : Fin 12, ¬ k < s.n := fun k => by simp [empty]
  exact ⟨form, fun h => ⟨empty, idle h⟩, fun _ => empty, fun _ _ k below => absurd below (noLane k), frontend⟩

/-- Settles O40: State.reset has nothing in BUF, N = 0 and Z = 0. -/
theorem invariantsHoldAtReset : Obligations.InvariantsHoldAtReset :=
  holds_of_empty wf_reset rfl (fun _ => rfl) fun _ => rfl

theorem takeEvent_holds {s : State} (h : HoldsBetweenCommands s) : HoldsBetweenCommands (takeEvent s) := h

theorem respond_holds (data : Word) {s : State} (h : HoldsBetweenCommands s) :
    HoldsBetweenCommands (respond data s) := h

theorem reject_holds (r : Reject) {s : State} (h : HoldsBetweenCommands s) :
    HoldsBetweenCommands (reject r s) := h

theorem applyReset_holds (s : State) : HoldsBetweenCommands (applyReset s) :=
  holds_of_empty (wf_residueBuf s.resets) rfl (fun _ => rfl) fun _ => rfl

theorem startMessage_holds {z : Bool} {seed : Word} {s : State} (built : z = true → s.hasScan = true)
    (h : HoldsBetweenCommands s) : HoldsBetweenCommands (startMessage z seed s) := by
  obtain ⟨form, -⟩ := h
  refine holds_of_empty form rfl (by simp) fun absent => ?_
  cases z with
  | false => rfl
  | true => exact absurd (built rfl) (by simpa using absent)

theorem cleared_holds {s : State} (h : HoldsBetweenCommands s) : HoldsBetweenCommands (cleared s) := by
  obtain ⟨form, -⟩ := h
  exact holds_of_empty form rfl (fun _ => rfl) fun _ => rfl

theorem endMessage_holds {s : State} (h : HoldsBetweenCommands s) : HoldsBetweenCommands (endMessage s) := by
  obtain ⟨form, -, -, -, frontend⟩ := h
  exact holds_of_empty (by simpa using form) (by simp) (by simp) (by simpa using frontend)

/-- A byte that SCAN lets through is not 0x00 in Z mode, so it may join the valid lanes (10_state.md R35 (vi)). -/
theorem pushByte_holds (byte : Byte) {s : State} (inAbsorb : s.ph = .absorb) (h : HoldsBetweenCommands s) :
    HoldsBetweenCommands (pushByte byte s) := by
  rcases pushByte_cases byte s with ⟨_, e⟩ | ⟨_, _, e⟩ | ⟨passes, _, e⟩ <;> rw [e]
  · exact endMessage_holds h
  · obtain ⟨form, -, -, -, frontend⟩ := h
    exact holds_of_empty (wf_memWrite s.n byte s form) rfl (by simp [inAbsorb]) frontend
  · obtain ⟨form, -, -, lanes, frontend⟩ := h
    have nonzero : s.z = true → byte ≠ 0x00#8 := fun hz hb =>
      absurd ((scan_iff byte s).mpr ⟨hz, hb⟩) (by simp [passes])
    refine ⟨wf_memWrite s.n byte s form, by simp [inAbsorb], by simp [inAbsorb], fun _ hz k below => ?_, frontend⟩
    change memRead k (memWrite s.n byte s) ≠ 0x00#8
    rw [memRead_memWrite]
    by_cases last : k = s.n
    · rw [if_pos last]
      exact nonzero hz
    · have old : k.val < s.n.val := by
        have : k.val < s.n.val + 1 := below
        have : k.val ≠ s.n.val := fun e => last (Fin.ext e)
        omega
      rw [if_neg last]
      exact lanes inAbsorb hz k old

/-- Every command keeps the invariants. -/
theorem Effect.holds {i : Instr} {s t : State} (effect : Effect i s t) (h : HoldsBetweenCommands s) :
    HoldsBetweenCommands t := by
  cases effect with
  | answers data => exact respond_holds data h
  | rejects r => exact reject_holds r h
  | starts z seed command built => exact startMessage_holds built h
  | clears command => exact respond_holds 0#32 (cleared_holds h)
  | ends command inAbsorb => exact respond_holds 0#32 (endMessage_holds h)
  | delivers command inAbsorb =>
    exact respond_holds 0#32 (pushBytes_induction (carried i) (fun byte _ hp => pushByte_holds byte hp) h)

/-- Settles O39, over everything a step can do. -/
theorem invariantsHoldBetweenCommands : Obligations.InvariantsHoldBetweenCommands := by
  intro s t h hstep
  cases stepEffect_of_step hstep with
  | nothing unused => exact h
  | resets later next => exact applyReset_holds _
  | rejects w later r next decoded => exact reject_holds r (takeEvent_holds h)
  | runs w later i _ next decoded effect => exact effect.holds (takeEvent_holds h)

end Sys2Proof.Machine
end

section
/-! Unspecified values: every operation answers alike in two states that agree on what is specified (10_state.md R24, R25,
R36). -/

namespace Sys2Proof.Machine

/-- With N = 0 and outside a message only the control state and the ports are specified, and in DONE also C. -/
theorem same_of_empty {s t : State} (n : s.n = 0) (n' : t.n = 0) (ph : s.ph = t.ph) (z : s.z = t.z)
    (err : s.err = t.err) (hasScan : s.hasScan = t.hasScan) (host : s.host = t.host) (rsp : s.rsp = t.rsp)
    (regs : s.ph ≠ .idle → s.regs = t.regs) : SameSpecified s t := by
  refine ⟨n.trans n'.symm, ph, z, err, hasScan, host, rsp, fun hp => regs (by simp [hp]),
    fun hp => congrArg HashState.c (regs (by simp [hp])), fun k below => ?_⟩
  simp [n] at below

theorem same_takeEvent {s t : State} (h : SameSpecified s t) : SameSpecified (takeEvent s) (takeEvent t) := by
  obtain ⟨n, ph, z, err, hasScan, host, rsp, regs, c, lanes⟩ := h
  exact ⟨n, ph, z, err, hasScan, congrArg List.tail host, rsp, regs, c, lanes⟩

theorem same_respond (data : Word) {s t : State} (h : SameSpecified s t) :
    SameSpecified (respond data s) (respond data t) := by
  obtain ⟨n, ph, z, err, hasScan, host, -, regs, c, lanes⟩ := h
  exact ⟨n, ph, z, err, hasScan, host, rfl, regs, c, lanes⟩

theorem same_reject (r : Reject) {s t : State} (h : SameSpecified s t) :
    SameSpecified (reject r s) (reject r t) := by
  obtain ⟨n, ph, z, err, hasScan, host, -, regs, c, lanes⟩ := h
  exact ⟨n, ph, z, congrArg (latchError · r) err, hasScan, host, rfl, regs, c, lanes⟩

theorem same_applyReset {s t : State} (h : SameSpecified s t) : SameSpecified (applyReset s) (applyReset t) := by
  obtain ⟨-, -, -, -, hasScan, host, -⟩ := h
  exact same_of_empty rfl rfl rfl rfl rfl hasScan host rfl (by simp)

theorem same_startMessage (mode : Bool) (seed : Word) {s t : State} (h : SameSpecified s t) :
    SameSpecified (startMessage mode seed s) (startMessage mode seed t) := by
  obtain ⟨-, -, -, err, hasScan, host, -⟩ := h
  exact same_of_empty rfl rfl rfl rfl err hasScan host rfl fun _ => rfl

theorem same_cleared {s t : State} (h : SameSpecified s t) : SameSpecified (cleared s) (cleared t) := by
  obtain ⟨-, -, -, -, hasScan, host, rsp, -⟩ := h
  exact same_of_empty rfl rfl rfl rfl rfl hasScan host rsp fun busy => absurd rfl busy

/-- TPACK reads the `r` bytes of the tail and no byte above them (43_tail_packer.md R141 (iii)). -/
theorem tpack_congr {r : Nat} {byte byte' : Fin 12 → Byte} (same : ∀ k : Fin 12, k.val < r → byte k = byte' k) :
    tpack r byte = tpack r byte' := by
  have same' : ∀ k : Fin 12, k.val + 1 ≤ r → byte k = byte' k := same
  simp +contextual -zeta [tpack, same']

/-- BPACK reads the lanes and nothing else (42_block_mixer.md R120). -/
theorem bpack_congr {s t : State} (same : ∀ k : Fin 12, memRead k s = memRead k t) : bpack s = bpack t := by
  simp only [bpack, same]

theorem same_endMessage {s t : State} (h : SameSpecified s t) (inAbsorb : s.ph = .absorb) :
    SameSpecified (endMessage s) (endMessage t) := by
  obtain ⟨n, -, z, err, hasScan, host, rsp, regs, -, lanes⟩ := h
  have words : tpack t.n.val (fun k => memRead k s) = tpack t.n.val fun k => memRead k t :=
    tpack_congr fun k below => lanes k (n ▸ below)
  refine same_of_empty (by simp) (by simp) (by simp) (by simpa using z) (by simpa using err) (by simpa using hasScan)
    (by simpa using host) (by simpa using rsp) fun _ => ?_
  rw [endMessage_eq, endMessage_eq]
  simp only [words, regs inAbsorb, n]

/-- Storing one byte at lane N makes the lanes up to N agree. -/
theorem lanes_memWrite (byte : Byte) {s t : State} (n : s.n = t.n)
    (lanes : ∀ k : Fin 12, k < s.n → memRead k s = memRead k t) (k : Fin 12) (le : k ≤ s.n) :
    memRead k (memWrite s.n byte s) = memRead k (memWrite t.n byte t) := by
  rw [memRead_memWrite, memRead_memWrite, ← n]
  by_cases last : k = s.n
  · rw [if_pos last, if_pos last]
  · rw [if_neg last, if_neg last]
    exact lanes k (lt_of_le_of_ne le last)

theorem same_pushByte (byte : Byte) {s t : State} (h : SameSpecified s t) (inAbsorb : s.ph = .absorb) :
    SameSpecified (pushByte byte s) (pushByte byte t) := by
  have ended := same_endMessage h inAbsorb
  obtain ⟨n, ph, z, err, hasScan, host, rsp, regs, -, lanes⟩ := h
  have scanned : scan byte t = scan byte s := by simp only [scan, z]
  have written := lanes_memWrite byte n lanes
  rcases pushByte_cases byte s with ⟨stops, e⟩ | ⟨passes, full, e⟩ | ⟨passes, room, e⟩ <;> rw [e]
  · rw [pushByte_ends byte t (scanned.trans stops)]
    exact ended
  · rw [pushByte_fills byte t (scanned.trans passes) (n ▸ full)]
    have all : ∀ k : Fin 12, k ≤ s.n := fun k => Fin.le_def.mpr (by omega)
    have blocks : bpack (memWrite s.n byte s) = bpack (memWrite t.n byte t) :=
      bpack_congr fun k => written k (all k)
    exact same_of_empty rfl rfl ph z err hasScan host rsp fun _ => by simp [blocks, regs inAbsorb]
  · rw [pushByte_stores byte t (scanned.trans passes) (n ▸ room)]
    refine ⟨by simp [n], ph, z, err, hasScan, host, rsp, regs, by simp [inAbsorb], fun k below => written k ?_⟩
    exact Nat.lt_succ_iff.mp below

theorem same_pushBytes (bytes : List Byte) {s t : State} (h : SameSpecified s t) :
    SameSpecified (pushBytes bytes s) (pushBytes bytes t) := by
  induction bytes generalizing s t with
  | nil => exact h
  | cons byte rest ih =>
    have ⟨_, ph, _⟩ := h
    rw [pushBytes_cons, pushBytes_cons, ← ph]
    by_cases hp : s.ph = .absorb
    · rw [if_pos hp, if_pos hp]
      exact ih (same_pushByte byte h hp)
    · rw [if_neg hp, if_neg hp]
      exact ih h

/-- The phase check reads PH and Z only, which are specified. -/
theorem same_inMessage {effect : State → State} {s t : State} (h : SameSpecified s t)
    (runs : s.ph = .absorb → SameSpecified (effect s) (effect t)) :
    SameSpecified (inMessage effect s) (inMessage effect t) := by
  have ⟨_, ph, z, _⟩ := h
  simp only [inMessage, ← ph, ← z]
  split
  · exact same_reject _ h
  · exact same_reject _ h
  · exact same_respond _ h
  · exact same_respond _ (runs (by assumption))

theorem same_exec (i : Instr) {s t s' : State} (h : SameSpecified s t) (hs : exec i s = .next s') :
    ∃ t', exec i t = .next t' ∧ SameSpecified s' t' := by
  have ⟨n, ph, z, err, hasScan, _, _, _, c, _⟩ := h
  cases i with
  | nop => cases hs; exact ⟨_, exec_nop t, same_respond _ h⟩
  | startz seed =>
    rw [exec_startz] at hs
    cases hs
    refine ⟨_, exec_startz seed t, ?_⟩
    rw [← hasScan]
    split
    · exact same_startMessage true seed h
    · exact same_reject _ h
  | startn seed => cases hs; exact ⟨_, exec_startn seed t, same_startMessage false seed h⟩
  | pushb byte =>
    rw [exec_pushb] at hs
    cases hs
    exact ⟨_, exec_pushb byte t, same_inMessage h fun _ => same_pushBytes _ h⟩
  | pushw word => cases hs; exact ⟨_, exec_pushw word t, same_inMessage h fun _ => same_pushBytes _ h⟩
  | finish => cases hs; exact ⟨_, exec_finish t, same_inMessage h (same_endMessage h)⟩
  | read =>
    rw [exec_read] at hs
    cases hs
    refine ⟨_, exec_read t, ?_⟩
    rw [← ph]
    split
    · have result : ret s = ret t := c (by assumption)
      exact result ▸ same_respond _ h
    · exact same_reject _ h
  | status =>
    cases hs
    have reported : statusWord s = statusWord t := by simp only [statusWord, n, ph, z, err]
    exact ⟨_, exec_status t, reported ▸ same_respond _ h⟩
  | clear => cases hs; exact ⟨_, exec_clear t, same_respond _ (same_cleared h)⟩

/-- Settles O41: the host presents the same event to both states, which take it alike. -/
theorem unspecifiedValuesAreNeverObserved : Obligations.UnspecifiedValuesAreNeverObserved := by
  intro s t s' h hstep
  have ⟨_, _, _, _, hasScan, host, _⟩ := h
  have taken := same_takeEvent h
  match hh : s.host with
  | [] =>
    rw [step_nothing s hh] at hstep
    cases hstep
    exact ⟨t, step_nothing t (host.symm.trans hh), h⟩
  | .reset :: later =>
    rw [step_of_host_cons hh] at hstep
    cases hstep
    exact ⟨_, step_of_host_cons (host.symm.trans hh), same_applyReset taken⟩
  | .command w :: later =>
    rw [step_of_host_cons hh] at hstep
    rw [step_of_host_cons (host.symm.trans hh)]
    change acceptCommand w (takeEvent s) = .next s' at hstep
    change ∃ t', acceptCommand w (takeEvent t) = .next t' ∧ SameSpecified s' t'
    cases hd : decode s.hasScan w with
    | error r =>
      rw [acceptCommand_of_decode_error (s := takeEvent s) hd] at hstep
      cases hstep
      exact ⟨_, acceptCommand_of_decode_error (s := takeEvent t) (hasScan ▸ hd), same_reject r taken⟩
    | ok i =>
      rw [acceptCommand_of_decode_ok (s := takeEvent s) hd] at hstep
      rw [acceptCommand_of_decode_ok (s := takeEvent t) (hasScan ▸ hd)]
      exact same_exec i taken hstep

end Sys2Proof.Machine
end

section
/-! The phase after every event, the table of 10_state.md R27. -/

namespace Sys2Proof.Machine

/-- A word never decodes to a command that the block lacks (30_encoding.md R71, R75, 41_scan_frontend.md R108). -/
theorem decode_wellFormed {hasScan : Bool} {w : CmdWord} {i : Instr} (h : decode hasScan w = .ok i) :
    i.wellFormed hasScan = true := by
  cases i with
  | startz seed =>
    cases hasScan with
    | true => rfl
    | false =>
      have defined : reservedOp false (opOf w) = false :=
        Bool.eq_false_of_not_eq_true fun reserved => by simp [decode, reserved] at h
      have op : opOf w = 1#4 := by
        simp only [decode, defined, Bool.false_eq_true, if_false] at h
        split at h
        · cases h
        · split at h <;> cases h
          exact BitVec.eq_of_toNat_eq (by assumption)
      simp [reservedOp, op] at defined
  | nop | startn | pushb | pushw | finish | read | status | clear => rfl

theorem inMessage_ph (effect : State → State) (s : State) :
    (inMessage effect s).ph = if s.ph = .absorb then (effect s).ph else s.ph := by
  rcases inMessage_cases effect s with ⟨hp, e⟩ | ⟨hp, _, e⟩ | ⟨hp | ⟨hp, _⟩, e⟩ <;> simp [e, hp]

theorem pushByte_ph (byte : Byte) {s : State} (inAbsorb : s.ph = .absorb) :
    (pushByte byte s).ph = if s.z = true ∧ byte = 0x00#8 then .done else .absorb := by
  simp only [← scan_iff]
  rcases pushByte_cases byte s with ⟨hs, e⟩ | ⟨hs, _, e⟩ | ⟨hs, _, e⟩ <;> simp [e, hs, inAbsorb]

/-- The delivery of bytes ends a Z-mode message exactly when one of them is 0x00 (41_scan_frontend.md R105). -/
theorem pushBytes_ph (bytes : List Byte) {s : State} (inAbsorb : s.ph = .absorb) :
    (pushBytes bytes s).ph = if s.z = true ∧ 0x00#8 ∈ bytes then .done else .absorb := by
  induction bytes generalizing s with
  | nil => simp [inAbsorb]
  | cons byte rest ih =>
    rw [pushBytes_cons, if_pos inAbsorb]
    have ph := pushByte_ph byte inAbsorb
    by_cases stops : s.z = true ∧ byte = 0x00#8
    · rw [if_pos stops] at ph
      rw [pushBytes_ended rest _ (by simp [ph]), ph]
      simp [stops]
    · rw [if_neg stops] at ph
      obtain ⟨z, -⟩ := pushByte_keeps byte s
      rw [ih ph, z]
      by_cases hz : s.z = true
      · have hb : ¬ 0x00#8 = byte := fun e => stops ⟨hz, e.symm⟩
        simp [hz, hb]
      · simp [hz]

theorem push_ph (bytes : List Byte) (s : State) :
    (inMessage (pushBytes bytes) s).ph =
      if s.ph = .absorb ∧ s.z = true ∧ 0x00#8 ∈ bytes then .done else s.ph := by
  rw [inMessage_ph]
  by_cases hp : s.ph = .absorb
  · simp [pushBytes_ph bytes hp, hp]
  · simp [hp]

/-- Settles O36, event by event; an accepted STARTZ is one the block has. -/
theorem phaseMovesOnlyAlongTheArrows : Obligations.PhaseMovesOnlyAlongTheArrows := by
  intro s e later
  cases e with
  | reset => exact ⟨_, step_reset s later, rfl⟩
  | command w =>
    cases hd : decode s.hasScan w with
    | error r =>
      exact ⟨_, acceptCommand_of_decode_error (s := { s with host := later }) hd, by simp [hd]⟩
    | ok i =>
      rw [stepRunsTheDecodedCommand s w later i hd]
      simp only [hd]
      cases i with
      | nop => exact ⟨_, exec_nop _, rfl⟩
      | startz seed =>
        have built : s.hasScan = true := decode_wellFormed hd
        exact ⟨_, exec_startz seed _, by simp [built]⟩
      | startn seed => exact ⟨_, exec_startn seed _, rfl⟩
      | pushb byte => exact ⟨_, exec_pushb byte _, by
        simp only [push_ph, carried, List.mem_singleton, @eq_comm _ 0x00#8 byte]⟩
      | pushw word => exact ⟨_, exec_pushw word _, push_ph _ _⟩
      | finish => exact ⟨_, exec_finish _, by simp [inMessage_ph]⟩
      | read => exact ⟨_, exec_read _, by split <;> rfl⟩
      | status => exact ⟨_, exec_status _, rfl⟩
      | clear => exact ⟨_, exec_clear _, rfl⟩

end Sys2Proof.Machine
end

section
/-! Which events write which part of the state (10_state.md R23, R25, R28, R29). -/

namespace Sys2Proof.Machine

/-- A latched code is kept by every further rejection (60_exceptions.md R196). -/
theorem latchError_of_ne {err : BitVec 2} (r : Reject) (latched : err ≠ 0#2) : latchError err r = err :=
  if_neg latched

/-- Settles O37, over everything a step can do. -/
theorem onlyTheseEventsWrite : Obligations.OnlyTheseEventsWrite := by
  intro s t e later hstep decodesTo starts pushes
  cases stepEffect_of_step hstep with
  | nothing unused => cases unused
  | resets _ next =>
    cases next
    exact ⟨fun _ => .inl rfl, fun _ => .inl rfl, fun _ => .inl rfl, fun _ _ => ⟨rfl, .inl rfl⟩, fun _ => .inl rfl,
      rfl, rfl⟩
  | rejects w _ r next decoded =>
    cases next
    exact ⟨absurd rfl, absurd rfl, absurd rfl, fun ne latched => absurd (latchError_of_ne r latched) ne, absurd rfl,
      rfl, rfl⟩
  | runs w _ i _ next decoded effect =>
    cases next
    have decodes : ∀ p : Instr → Prop, p i → decodesTo p := fun p hp => ⟨w, i, rfl, decoded, hp⟩
    cases effect with
    | answers data => exact ⟨absurd rfl, absurd rfl, absurd rfl, absurd rfl, absurd rfl, rfl, rfl⟩
    | rejects r =>
      exact ⟨absurd rfl, absurd rfl, absurd rfl, fun ne latched => absurd (latchError_of_ne r latched) ne, absurd rfl,
        rfl, rfl⟩
    | starts z seed command built =>
      have start : starts i := ⟨seed, by cases z <;> simp [command, starting]⟩
      exact ⟨fun _ => .inr (.inl (decodes _ start)), absurd rfl, fun _ => .inr (decodes _ (.inl start)), absurd rfl,
        fun _ => .inr (.inl (decodes _ (.inl start))), rfl, rfl⟩
    | clears command =>
      exact ⟨absurd rfl, absurd rfl, fun _ => .inr (decodes _ (.inr command)),
        fun _ _ => ⟨rfl, .inr (decodes _ command)⟩, fun _ => .inr (.inl (decodes _ (.inr command))), rfl, rfl⟩
    | ends command inAbsorb =>
      have ended := decodes (fun i => pushes i ∨ i = .finish) (.inr command)
      exact ⟨fun _ => .inr (.inr ⟨inAbsorb, ended⟩), absurd (endMessage_buf _), absurd (endMessage_z _),
        absurd (endMessage_err _), fun _ => .inr (.inr ⟨inAbsorb, ended⟩), endMessage_hasScan _, endMessage_host _⟩
    | delivers command inAbsorb =>
      have pushed := decodes (fun i => pushes i ∨ i = .finish) (.inl command)
      obtain ⟨z, err, hasScan, host, -⟩ :=
        pushBytes_keeps (carried i) (takeEvent { s with host := .command w :: later })
      exact ⟨fun _ => .inr (.inr ⟨inAbsorb, pushed⟩), fun _ => .inr ⟨inAbsorb, decodes pushes command⟩,
        absurd z, absurd err, fun _ => .inr (.inr ⟨inAbsorb, pushed⟩), hasScan, host⟩

end Sys2Proof.Machine
end

section
/-! The status word, field by field (10_state.md R32), and the control state after reset. -/

namespace Sys2Proof.Machine

/-- Settles O15: the fields of State.reset, and what is computed from them. -/
theorem resetLeavesTheControlState : Obligations.ResetLeavesTheControlState :=
  ⟨rfl, rfl, rfl, rfl, rfl, rfl⟩

/-- A field of DATA is that field of the response word (30_encoding.md R66). -/
theorem extractLsb'_rspWord (code : BitVec 4) (data : Word) {low width : Nat} (le : low + width ≤ 32) :
    (rspWord code data).extractLsb' low width = data.extractLsb' low width :=
  BitVec.extractLsb'_append_eq_of_add_le le

theorem getLsbD_rspWord (code : BitVec 4) (data : Word) {i : Nat} (below : i < 32) :
    (rspWord code data).getLsbD i = data.getLsbD i :=
  (getLsbD_append36 code data i).trans (if_pos below)

theorem statusWord_ph (s : State) : (statusWord s).extractLsb' 0 2 = s.ph.bits :=
  BitVec.extractLsb'_append_eq_right

theorem statusWord_z (s : State) : (statusWord s).getLsbD 2 = s.z := by
  simp only [statusWord, BitVec.getLsbD_append]
  simp

theorem statusWord_bit3 (s : State) : (statusWord s).getLsbD 3 = false := by
  simp only [statusWord, BitVec.getLsbD_append]
  simp

/-- Above PH, Z and the zero bit the status word holds N, ERR and zeros (10_state.md R32). -/
theorem extractLsb'_statusWord (s : State) (low width : Nat) :
    (statusWord s).extractLsb' (low + 4) width = (0#22 ++ s.err ++ BitVec.ofNat 4 s.n.val).extractLsb' low width :=
  calc (statusWord s).extractLsb' (low + 4) width
      = (0#22 ++ s.err ++ BitVec.ofNat 4 s.n.val ++ 0#1 ++ BitVec.ofBool s.z).extractLsb' (low + 2) width :=
        BitVec.extractLsb'_append_eq_of_le (by omega)
    _ = (0#22 ++ s.err ++ BitVec.ofNat 4 s.n.val ++ 0#1).extractLsb' (low + 1) width :=
        BitVec.extractLsb'_append_eq_of_le (by omega)
    _ = (0#22 ++ s.err ++ BitVec.ofNat 4 s.n.val).extractLsb' low width :=
        BitVec.extractLsb'_append_eq_of_le (by omega)

theorem statusWord_n (s : State) : ((statusWord s).extractLsb' 4 4).toNat = s.n.val := by
  have field : (statusWord s).extractLsb' 4 4 = BitVec.ofNat 4 s.n.val :=
    (extractLsb'_statusWord s 0 4).trans BitVec.extractLsb'_append_eq_right
  rw [field, BitVec.toNat_ofNat]
  exact Nat.mod_eq_of_lt (by omega)

theorem statusWord_err (s : State) : (statusWord s).extractLsb' 8 2 = s.err :=
  calc (statusWord s).extractLsb' 8 2
      = (0#22 ++ s.err ++ BitVec.ofNat 4 s.n.val).extractLsb' 4 2 := extractLsb'_statusWord s 4 2
    _ = (0#22 ++ s.err).extractLsb' 0 2 := BitVec.extractLsb'_append_eq_of_le (by omega)
    _ = s.err := BitVec.extractLsb'_append_eq_right

theorem statusWord_high (s : State) : (statusWord s).extractLsb' 10 22 = 0#22 :=
  calc (statusWord s).extractLsb' 10 22
      = (0#22 ++ s.err ++ BitVec.ofNat 4 s.n.val).extractLsb' 6 22 := extractLsb'_statusWord s 6 22
    _ = (0#22 ++ s.err).extractLsb' 2 22 := BitVec.extractLsb'_append_eq_of_le (by omega)
    _ = 0#22 := BitVec.extractLsb'_append_eq_left

/-- Settles O34: the answer carries the status word, whose fields are read one by one. -/
theorem statusAnswersTheStatusWord : Obligations.StatusAnswersTheStatusWord := by
  intro s
  have field {low width : Nat} := @extractLsb'_rspWord okCode (statusWord s) low width
  refine ⟨rspWord okCode (statusWord s), exec_status s, codeOf_rspWord _ _, ?ph, ?z, ?bit3, ?n, ?err, ?high⟩
  case ph => rw [field (by omega), statusWord_ph]; cases s.ph <;> rfl
  case z => rw [getLsbD_rspWord _ _ (by omega), statusWord_z]
  case bit3 => rw [getLsbD_rspWord _ _ (by omega), statusWord_bit3]
  case n => rw [field (by omega), statusWord_n]
  case err => rw [field (by omega), statusWord_err]
  case high => rw [field (by omega), statusWord_high]

end Sys2Proof.Machine
end

section
/-! The commands that may be repeated (20_memory.md R53): each is one update of the state, and each of these updates is
idempotent. -/

namespace Sys2Proof.Machine

theorem respond_respond (data data' : Word) (s : State) : respond data (respond data' s) = respond data s := rfl

theorem startMessage_startMessage (z : Bool) (seed : Word) (s : State) :
    startMessage z seed (startMessage z seed s) = startMessage z seed s := rfl

theorem respond_cleared_twice (data : Word) (s : State) :
    respond data (cleared (respond data (cleared s))) = respond data (cleared s) := rfl

/-- The response is no part of what the status word reports (10_state.md R32). -/
theorem statusWord_respond (data : Word) (s : State) : statusWord (respond data s) = statusWord s := rfl

theorem ret_respond (data : Word) (s : State) : ret (respond data s) = ret s := rfl

/-- A rejection leaves some code in the latch: its own, or the one already there (60_exceptions.md R196). -/
theorem latchError_ne_zero (err : BitVec 2) (r : Reject) : latchError err r ≠ 0#2 := by
  by_cases clear : err = 0#2
  · rw [latchError, if_pos clear]
    cases r <;> decide
  · rwa [latchError_of_ne r clear]

/-- The latch keeps the first code, so that a second rejection finds nothing to change (60_exceptions.md R195, R196). -/
theorem reject_reject (r : Reject) (s : State) : reject r (reject r s) = reject r s := by
  simp [reject, latchError_of_ne r (latchError_ne_zero s.err r)]

/-- A command whose meaning is an idempotent update leaves the same when it is executed again. -/
theorem exec_twice {i : Instr} {update : State → State} (meaning : ∀ s, exec i s = .next (update s))
    (idempotent : ∀ s, update (update s) = update s) (s : State) :
    ∃ t, exec i s = .next t ∧ exec i t = .next t :=
  ⟨update s, meaning s, (meaning (update s)).trans (congrArg _ (idempotent s))⟩

/-- READ changes no phase, so that it is accepted, or rejected, both times (45_result_status.md R176). -/
theorem exec_read_twice (s : State) : ∃ t, exec .read s = .next t ∧ exec .read t = .next t := by
  refine exec_twice exec_read (fun u => ?_) s
  by_cases done : u.ph = .done
  · simp [done, ret_respond, respond_respond]
  · simp [done, reject_reject]

/-- STARTZ begins the same message both times or, without the frontend, is rejected both times (41_scan_frontend.md
R108). -/
theorem exec_startz_twice (seed : Word) (s : State) :
    ∃ t, exec (.startz seed) s = .next t ∧ exec (.startz seed) t = .next t := by
  refine exec_twice (exec_startz seed) (fun u => ?_) s
  by_cases built : u.hasScan = true
  · simp [built, startMessage_startMessage]
  · simp [built, reject_reject]

/-- Settles O35, command by command: NOP, READ, STATUS, CLEAR, STARTZ, STARTN. -/
theorem repeatingTheseCommandsChangesNothing : Obligations.RepeatingTheseCommandsChangesNothing := by
  rintro i s (rfl | rfl | rfl | rfl | ⟨seed, rfl | rfl⟩)
  · exact exec_twice exec_nop (respond_respond _ _) s
  · exact exec_read_twice s
  · exact exec_twice exec_status (fun u => by rw [statusWord_respond, respond_respond]) s
  · exact exec_twice exec_clear (respond_cleared_twice _) s
  · exact exec_startz_twice seed s
  · exact exec_twice (exec_startn seed) (startMessage_startMessage _ _) s

end Sys2Proof.Machine
end

section
/-! The decoder and the encoder (30_encoding.md R65 to R75): the words of commands are those in which steps 1 and 2 of
decoding find nothing reserved. -/

namespace Sys2Proof.Machine

/-- What the encoding of every command holds: the laws of the single commands together. -/
theorem encodedFields (i : Instr) : Laws.EncodedFields.Statement i := by
  cases i with
  | nop => exact Laws.EncodedFields.nop
  | startz seed => exact Laws.EncodedFields.startz seed
  | startn seed => exact Laws.EncodedFields.startn seed
  | pushb byte => exact Laws.EncodedFields.pushb byte
  | pushw word => exact Laws.EncodedFields.pushw word
  | finish => exact Laws.EncodedFields.finish
  | read => exact Laws.EncodedFields.read
  | status => exact Laws.EncodedFields.status
  | clear => exact Laws.EncodedFields.clear

theorem reservedArgSet_encode (i : Instr) : reservedArgSet (opOf (encode i)) (argOf (encode i)) = false := by
  obtain ⟨op, arg, -, unset⟩ := encodedFields i
  rw [op, arg, unset]

/-- The opcode of a command is reserved exactly where the block lacks the command (30_encoding.md R71,
41_scan_frontend.md R108). -/
theorem reservedOp_opcode (hasScan : Bool) (i : Instr) : reservedOp hasScan i.opcode = !i.wellFormed hasScan := by
  cases i <;> cases hasScan <;> rfl

/-- The operand of PUSHB is the low byte of its ARG (30_encoding.md R68). -/
theorem low_of_byte (byte : Byte) : (byte.setWidth 32).extractLsb' 0 8 = byte := by
  apply BitVec.eq_of_getLsbD_eq
  intro i h
  have inside : i < 32 := by omega
  simp [h, inside]

/-- Settles O1: nothing is reserved in the word of a command, and the opcode picks the command's constructor. -/
theorem decodeOfEncodeIsTheCommand : Obligations.DecodeOfEncodeIsTheCommand := by
  intro hasScan i built
  obtain ⟨-, -, -, unset⟩ := encodedFields i
  have definedOp : reservedOp hasScan i.opcode = false := by rw [reservedOp_opcode, built, Bool.not_true]
  simp only [decode, opOf_encode, argOf_encode, definedOp, unset, Bool.false_eq_true, if_false]
  cases i with
  | pushb byte => exact congrArg (fun b => Except.ok (Instr.pushb b)) (low_of_byte byte)
  | nop | startz | startn | pushw | finish | read | status | clear => rfl

/-- Equal fields, equal words (30_encoding.md R65). -/
theorem encode_eq_of_fields {i : Instr} {w : CmdWord} (op : i.opcode = opOf w) (arg : i.operand = argOf w) :
    encode i = w := by
  rw [encode, op, arg, cmdWord_opOf_argOf]

/-- An operand word with bits 31:8 zero is its low byte. -/
theorem setWidth_low_of_high {arg : Word} (high : arg.extractLsb' 8 24 = 0#24) :
    (arg.extractLsb' 0 8).setWidth 32 = arg := by
  apply BitVec.eq_of_getLsbD_eq
  intro i h
  by_cases low : i < 8
  · simp [low, h]
  · have inside : i - 8 < 24 := by omega
    have place : 8 + (i - 8) = i := by omega
    have bit : arg.getLsbD i = (arg.extractLsb' 8 24).getLsbD (i - 8) := by simp [inside, place]
    simp [low, bit, high]

/-- The opcodes of the map (30_encoding.md R67). -/
theorem opcode_cases {op : BitVec 4} (definedOp : op.toNat < 9) :
    op = 0#4 ∨ op = 1#4 ∨ op = 2#4 ∨ op = 3#4 ∨ op = 4#4 ∨ op = 5#4 ∨ op = 6#4 ∨ op = 7#4 ∨ op = 8#4 := by
  revert op
  decide

/-- Every pair of a defined opcode and an operand without reserved bits is a command's (30_encoding.md R67, R73). -/
theorem exists_command {op : BitVec 4} {arg : Word} (definedOp : op.toNat < 9)
    (unset : reservedArgSet op arg = false) : ∃ i : Instr, i.opcode = op ∧ i.operand = arg := by
  have zero : op ∈ [0#4, 5#4, 6#4, 7#4, 8#4] → arg = 0#32 := by
    simp only [List.mem_cons, List.not_mem_nil, or_false]
    rintro (rfl | rfl | rfl | rfl | rfl) <;> simpa [reservedArgSet] using unset
  rcases opcode_cases definedOp with rfl | rfl | rfl | rfl | rfl | rfl | rfl | rfl | rfl
  · exact ⟨.nop, rfl, (zero (by decide)).symm⟩
  · exact ⟨.startz arg, rfl, rfl⟩
  · exact ⟨.startn arg, rfl, rfl⟩
  · exact ⟨.pushb (arg.extractLsb' 0 8), rfl, setWidth_low_of_high (by simpa [reservedArgSet] using unset)⟩
  · exact ⟨.pushw arg, rfl, rfl⟩
  · exact ⟨.finish, rfl, (zero (by decide)).symm⟩
  · exact ⟨.read, rfl, (zero (by decide)).symm⟩
  · exact ⟨.status, rfl, (zero (by decide)).symm⟩
  · exact ⟨.clear, rfl, (zero (by decide)).symm⟩

theorem decode_reservedOp {hasScan : Bool} {w : CmdWord} (reserved : reservedOp hasScan (opOf w) = true) :
    decode hasScan w = .error .eOp := by
  simp [decode, reserved]

theorem decode_reservedArg {hasScan : Bool} {w : CmdWord} (definedOp : reservedOp hasScan (opOf w) = false)
    (set : reservedArgSet (opOf w) (argOf w) = true) : decode hasScan w = .error .eArg := by
  simp [decode, definedOp, set]

/-- A word with nothing reserved in it is the word of a command, and decodes to it (30_encoding.md R73, R75). -/
theorem decode_defined {hasScan : Bool} {w : CmdWord} (definedOp : reservedOp hasScan (opOf w) = false)
    (unset : reservedArgSet (opOf w) (argOf w) = false) : ∃ i, decode hasScan w = .ok i ∧ encode i = w := by
  have small : (opOf w).toNat < 9 := by
    simp only [reservedOp, Bool.or_eq_false_iff, decide_eq_false_iff_not] at definedOp
    exact Nat.lt_of_not_le definedOp.1
  obtain ⟨i, op, arg⟩ := exists_command small unset
  have word : encode i = w := encode_eq_of_fields op arg
  have built : i.wellFormed hasScan = true := by
    rw [← Bool.not_eq_false', ← reservedOp_opcode, op, definedOp]
  exact ⟨i, word ▸ decodeOfEncodeIsTheCommand hasScan i built, word⟩

/-- Everything decoding can answer, in the order of its steps (30_encoding.md R75). -/
theorem decode_cases (hasScan : Bool) (w : CmdWord) :
    (reservedOp hasScan (opOf w) = true ∧ decode hasScan w = .error .eOp) ∨
    (reservedOp hasScan (opOf w) = false ∧ reservedArgSet (opOf w) (argOf w) = true ∧
      decode hasScan w = .error .eArg) ∨
    (reservedOp hasScan (opOf w) = false ∧ reservedArgSet (opOf w) (argOf w) = false ∧
      ∃ i, decode hasScan w = .ok i ∧ encode i = w) := by
  cases op : reservedOp hasScan (opOf w) with
  | true => exact .inl ⟨rfl, decode_reservedOp op⟩
  | false =>
    cases arg : reservedArgSet (opOf w) (argOf w) with
    | true => exact .inr (.inl ⟨rfl, rfl, decode_reservedArg op arg⟩)
    | false => exact .inr (.inr ⟨rfl, rfl, decode_defined op arg⟩)

theorem encode_of_decode {hasScan : Bool} {w : CmdWord} {i : Instr} (h : decode hasScan w = .ok i) :
    encode i = w := by
  rcases decode_cases hasScan w with ⟨-, e⟩ | ⟨-, -, e⟩ | ⟨-, -, j, e, word⟩ <;> rw [h] at e <;> cases e
  exact word

/-- Settles O2: a word decodes only where its two fields are those of the command it decodes to. -/
theorem decodedWordIsItsEncoding : Obligations.DecodedWordIsItsEncoding :=
  fun _ _ _ h => ⟨encode_of_decode h, decode_wellFormed h⟩

/-- The reserved opcodes (30_encoding.md R71). -/
theorem reservedOp_iff (hasScan : Bool) (op : BitVec 4) :
    reservedOp hasScan op = true ↔ 9 ≤ op.toNat ∨ (op = 1#4 ∧ hasScan = false) := by
  simp [reservedOp]

/-- The reserved operand bits (30_encoding.md R72). -/
theorem reservedArgSet_iff {op : BitVec 4} {arg : Word} (definedOp : op.toNat < 9) :
    reservedArgSet op arg = true ↔
      (op ∈ [0#4, 5#4, 6#4, 7#4, 8#4] ∧ arg ≠ 0#32) ∨ (op = 3#4 ∧ arg.extractLsb' 8 24 ≠ 0#24) := by
  rcases opcode_cases definedOp with rfl | rfl | rfl | rfl | rfl | rfl | rfl | rfl | rfl <;>
    simp [reservedArgSet]

/-- Settles O4: the three cases of decoding exclude each other. -/
theorem decodingChecksOpcodeThenOperand : Obligations.DecodingChecksOpcodeThenOperand := by
  intro hasScan w badOp badArg
  have op : reservedOp hasScan (opOf w) = true ↔ badOp := reservedOp_iff hasScan (opOf w)
  have arg : ¬ badOp → (reservedArgSet (opOf w) (argOf w) = true ↔ badArg) := fun fine =>
    reservedArgSet_iff (Nat.lt_of_not_le fun large => fine (.inl large))
  rcases decode_cases hasScan w with ⟨bad, e⟩ | ⟨fine, set, e⟩ | ⟨fine, unset, i, e, -⟩
  · simp [e, op.mp bad]
  · have notOp : ¬ badOp := by simp [← op, fine]
    simp [e, notOp, (arg notOp).mp set]
  · have notOp : ¬ badOp := by simp [← op, fine]
    have notArg : ¬ badArg := by simp [← arg notOp, unset]
    simp [e, notOp, notArg]

/-- Settles O5: the words of commands by their encodings, the others by what is reserved in them. -/
theorem specWordsDecode : Obligations.SpecWordsDecode :=
  ⟨decodeOfEncodeIsTheCommand true .nop rfl,
    decodeOfEncodeIsTheCommand true (.startz 0xffffffff#32) rfl,
    decodeOfEncodeIsTheCommand true (.startn 0xdeadbeef#32) rfl,
    decodeOfEncodeIsTheCommand true (.pushb 0x48#8) rfl,
    decodeOfEncodeIsTheCommand true (.pushw 0x63006261#32) rfl,
    decodeOfEncodeIsTheCommand true .finish rfl,
    decodeOfEncodeIsTheCommand true .read rfl,
    decodeOfEncodeIsTheCommand true .status rfl,
    decodeOfEncodeIsTheCommand true .clear rfl,
    decode_reservedOp (by decide),
    decode_reservedArg (by decide) (by decide),
    decode_reservedOp (by decide)⟩

/-- A word that decoding rejects is taken and answered with the code and zero data; nothing changes but the error latch
(30_encoding.md R71, R72, 60_exceptions.md R195). -/
theorem step_of_decode_error {s : State} {w : CmdWord} {r : Reject} (later : List HostEvent)
    (h : decode s.hasScan w = .error r) :
    step { s with host := .command w :: later } = .next (reject r { s with host := later }) :=
  acceptCommand_of_decode_error (s := { s with host := later }) h

/-- Settles O20: step 1 of decoding rejects the word before anything else is looked at. -/
theorem reservedOpcodeIsRejected : Obligations.ReservedOpcodeIsRejected := by
  intro s w later reserved
  exact step_of_decode_error later (decode_reservedOp ((reservedOp_iff s.hasScan (opOf w)).mpr reserved))

/-- Settles O21: the opcodes that have reserved operand bits are themselves not reserved. -/
theorem reservedOperandBitsAreRejected : Obligations.ReservedOperandBitsAreRejected := by
  intro s w later bad
  have fixed : ∀ op : BitVec 4, op ∈ [0#4, 5#4, 6#4, 7#4, 8#4] ∨ op = 3#4 → op.toNat < 9 ∧ op ≠ 1#4 := by decide
  obtain ⟨small, notStartz⟩ := fixed (opOf w) (bad.imp And.left And.left)
  have definedOp : reservedOp s.hasScan (opOf w) = false := by simp [reservedOp, notStartz, small]
  exact step_of_decode_error later (decode_reservedArg definedOp ((reservedArgSet_iff small).mpr bad))

end Sys2Proof.Machine
end

section
/-! The decoder and the spec's table of match and mask values (30_encoding.md R67). -/

namespace Sys2Proof.Machine

theorem cmdWord_inj {op op' : BitVec 4} {arg arg' : Word} :
    cmdWord op arg = cmdWord op' arg' ↔ op = op' ∧ arg = arg' := by
  constructor
  · intro h
    exact ⟨by simpa using congrArg opOf h, by simpa using congrArg argOf h⟩
  · rintro ⟨rfl, rfl⟩
    rfl

theorem cmdWord_and (op op' : BitVec 4) (arg arg' : Word) :
    cmdWord op arg &&& cmdWord op' arg' = cmdWord (op &&& op') (arg &&& arg') :=
  BitVec.and_append

/-- A mask that covers OP selects by OP and by the bits of ARG under the rest of the mask. -/
theorem masked_eq_iff (w : CmdWord) (op : BitVec 4) (mask : Word) :
    w &&& cmdWord 0xf#4 mask = cmdWord op 0#32 ↔ opOf w = op ∧ argOf w &&& mask = 0#32 := by
  have all : opOf w &&& 0xf#4 = opOf w := BitVec.and_allOnes
  conv_lhs => rw [← cmdWord_opOf_argOf w]
  rw [cmdWord_and, cmdWord_inj, all]

/-- The operand mask of PUSHB covers ARG[31:8]. -/
theorem high_mask_iff (arg : Word) : arg &&& 0xffffff00#32 = 0#32 ↔ arg.extractLsb' 8 24 = 0#24 := by
  have parts : arg.extractLsb' 8 24 ++ arg.extractLsb' 0 8 = arg := BitVec.extractLsb'_append_extractLsb' (w := 24)
  have all : arg.extractLsb' 8 24 &&& 0xffffff#24 = arg.extractLsb' 8 24 := BitVec.and_allOnes
  have masked : arg &&& 0xffffff00#32 = arg.extractLsb' 8 24 ++ 0#8 :=
    calc arg &&& 0xffffff00#32
        = (arg.extractLsb' 8 24 ++ arg.extractLsb' 0 8) &&& (0xffffff#24 ++ 0#8) := by rw [parts]; rfl
      _ = (arg.extractLsb' 8 24 &&& 0xffffff#24) ++ (arg.extractLsb' 0 8 &&& 0#8) := BitVec.and_append
      _ = arg.extractLsb' 8 24 ++ 0#8 := by rw [all, BitVec.and_zero]
  rw [masked]
  constructor
  · intro h
    exact BitVec.extractLsb'_append_eq_left.symm.trans (congrArg (BitVec.extractLsb' 8 24) h)
  · intro h
    rw [h]
    rfl

/-- Every row fixes OP and gives the value zero to the operand bits it fixes. -/
theorem row_fields {row : OpRow} (member : row ∈ opcodeMap) :
    row.mask = cmdWord 0xf#4 (argOf row.mask) ∧ row.value = cmdWord (opOf row.value) 0#32 := by
  revert row
  decide

/-- The operand bits a row fixes are those that are reserved for the row's OP (30_encoding.md R67, R72). -/
theorem unset_iff_masked {row : OpRow} (member : row ∈ opcodeMap) (arg : Word) :
    reservedArgSet (opOf row.value) arg = false ↔ arg &&& argOf row.mask = 0#32 := by
  have whole : arg &&& 0xffffffff#32 = arg := BitVec.and_allOnes
  simp only [opcodeMap, List.mem_cons, List.not_mem_nil, or_false] at member
  rcases member with rfl | rfl | rfl | rfl | rfl | rfl | rfl | rfl | rfl <;>
    simp [opOf, argOf, reservedArgSet, whole, high_mask_iff]

/-- A word has a row's value under the row's mask when it has the row's OP and no operand bit is set that is reserved
for it. -/
theorem selects_iff {row : OpRow} (member : row ∈ opcodeMap) (w : CmdWord) :
    w &&& row.mask = row.value ↔ opOf w = opOf row.value ∧ reservedArgSet (opOf w) (argOf w) = false := by
  obtain ⟨mask, value⟩ := row_fields member
  rw [mask, value, masked_eq_iff, opOf_cmdWord]
  refine and_congr_right fun op => ?_
  rw [op, unset_iff_masked member]

/-- The mnemonic of a row names the commands with the row's OP. -/
theorem mnemonic_eq_iff {row : OpRow} (member : row ∈ opcodeMap) (i : Instr) :
    i.mnemonic = row.mnemonic ↔ i.opcode = opOf row.value := by
  simp only [opcodeMap, List.mem_cons, List.not_mem_nil, or_false] at member
  rcases member with rfl | rfl | rfl | rfl | rfl | rfl | rfl | rfl | rfl <;>
    cases i <;> simp [Instr.mnemonic, Instr.opcode, opOf]

/-- The rows have the defined opcodes of the block with the frontend. -/
theorem row_opcode_defined {row : OpRow} (member : row ∈ opcodeMap) : reservedOp true (opOf row.value) = false := by
  revert row
  decide

/-- Settles O3: a row selects by its OP and its reserved operand bits, which are what decoding checks. -/
theorem opcodeMapSelectsTheCommand : Obligations.OpcodeMapSelectsTheCommand := by
  intro w
  refine ⟨fun row member => ⟨⟨fun selected => ?_, ?_⟩, fun op violated => ?_⟩, fun large => ?_, fun i h => ?_⟩
  · obtain ⟨op, unset⟩ := (selects_iff member w).mp selected
    obtain ⟨i, decoded, rfl⟩ := decode_defined (op ▸ row_opcode_defined member) unset
    exact ⟨i, decoded, (mnemonic_eq_iff member i).mpr ((opOf_encode i).symm.trans op)⟩
  · rintro ⟨i, decoded, name⟩
    rw [← encode_of_decode decoded]
    refine (selects_iff member _).mpr ⟨?_, reservedArgSet_encode i⟩
    exact (opOf_encode i).trans ((mnemonic_eq_iff member i).mp name)
  · refine decode_reservedArg (op ▸ row_opcode_defined member) (Bool.eq_true_of_not_eq_false fun unset => ?_)
    exact violated ((selects_iff member w).mpr ⟨op, unset⟩)
  · exact decode_reservedOp ((reservedOp_iff true (opOf w)).mpr (.inl large))
  · rw [← encode_of_decode h, argOf_encode]

end Sys2Proof.Machine
end

section
/-! The response of every command word (30_encoding.md R66, R70): its code from decoding and the table of
60_exceptions.md R193, its data from READ and STATUS alone. -/

namespace Sys2Proof.Machine

/-- The code with which a command the block has is answered: E_SEQ where the table of 60_exceptions.md R193 says so,
else OK. -/
def answerCode (i : Instr) (s : State) : BitVec 4 :=
  if legality i s.ph s.z = .seq then rejectCode .eSeq else okCode

/-- The data with which a command is answered (30_encoding.md R70). -/
def answerData (i : Instr) (s : State) : Word :=
  match i with
  | .read => if s.ph = .done then ret s else 0#32
  | .status => statusWord s
  | .nop | .startz _ | .startn _ | .pushb _ | .pushw _ | .finish | .clear => 0#32

/-- The three commands of a message share one phase check (60_exceptions.md R193). -/
theorem legality_pushb (byte : Byte) (ph : Phase) (z : Bool) :
    legality (.pushb byte) ph z = legality .finish ph z := by
  cases ph <;> cases z <;> rfl

theorem legality_pushw (word : Word) (ph : Phase) (z : Bool) :
    legality (.pushw word) ph z = legality .finish ph z := by
  cases ph <;> cases z <;> rfl

theorem inMessage_rsp (effect : State → State) (s : State) :
    (inMessage effect s).rsp = some (rspWord (answerCode .finish s) 0#32) := by
  rcases inMessage_cases effect s with ⟨ph, e⟩ | ⟨ph, z, e⟩ | ⟨ph | ⟨ph, z⟩, e⟩ <;>
    simp [answerCode, legality, *]

/-- The phase check takes nothing from the host. -/
theorem inMessage_host {effect : State → State} {s : State} (keeps : (effect s).host = s.host) :
    (inMessage effect s).host = s.host := by
  rcases inMessage_cases effect s with ⟨-, e⟩ | ⟨-, -, e⟩ | ⟨-, e⟩ <;> simp [e, keeps]

theorem pushBytes_host (bytes : List Byte) (s : State) : (pushBytes bytes s).host = s.host := by
  obtain ⟨-, -, -, host, -⟩ := pushBytes_keeps bytes s
  exact host

/-- Every command the block has is answered once, in every state, and takes nothing more from the host. -/
theorem exec_answers {i : Instr} {s : State} (built : i.wellFormed s.hasScan = true) :
    ∃ t, exec i s = .next t ∧ t.host = s.host ∧ t.rsp = some (rspWord (answerCode i s) (answerData i s)) := by
  cases i with
  | nop => exact ⟨_, exec_nop s, rfl, rfl⟩
  | startz seed =>
    have frontend : s.hasScan = true := built
    exact ⟨_, exec_startz seed s, by simp [frontend], by simp [frontend, answerCode, legality, answerData]⟩
  | startn seed => exact ⟨_, exec_startn seed s, rfl, rfl⟩
  | pushb byte =>
    refine ⟨_, exec_pushb byte s, inMessage_host (pushBytes_host _ s), ?_⟩
    rw [inMessage_rsp, answerCode, answerCode, legality_pushb, answerData]
  | pushw word =>
    refine ⟨_, exec_pushw word s, inMessage_host (pushBytes_host _ s), ?_⟩
    rw [inMessage_rsp, answerCode, answerCode, legality_pushw, answerData]
  | finish => exact ⟨_, exec_finish s, inMessage_host (endMessage_host s), inMessage_rsp endMessage s⟩
  | read =>
    refine ⟨_, exec_read s, ?_, ?_⟩
    · split <;> rfl
    · cases ph : s.ph <;> simp [ph, answerCode, legality, answerData]
  | status => exact ⟨_, exec_status s, rfl, rfl⟩
  | clear => exact ⟨_, exec_clear s, rfl, rfl⟩

theorem answerCode_eq_three (i : Instr) (s : State) : answerCode i s = 3#4 ↔ legality i s.ph s.z = .seq := by
  by_cases h : legality i s.ph s.z = .seq <;> simp [answerCode, h, rejectCode, okCode]

theorem answerCode_eq_zero (i : Instr) (s : State) : answerCode i s = 0#4 ↔ legality i s.ph s.z ≠ .seq := by
  by_cases h : legality i s.ph s.z = .seq <;> simp [answerCode, h, rejectCode, okCode]

/-- A command that decodes is never answered with a code of decoding (30_encoding.md R75). -/
theorem answerCode_range (i : Instr) (s : State) :
    (answerCode i s).toNat ≤ 3 ∧ answerCode i s ≠ 1#4 ∧ answerCode i s ≠ 2#4 := by
  by_cases h : legality i s.ph s.z = .seq <;> simp [answerCode, h, rejectCode, okCode]

/-- READ is accepted in DONE and nowhere else (45_result_status.md R176). -/
theorem legality_read (ph : Phase) (z : Bool) : legality .read ph z = .seq ↔ ph ≠ .done := by
  cases ph <;> simp [legality]

theorem opcode_eq_six (i : Instr) : i.opcode = 6#4 ↔ i = .read := by
  cases i <;> simp [Instr.opcode]

theorem opcode_eq_seven (i : Instr) : i.opcode = 7#4 ↔ i = .status := by
  cases i <;> simp [Instr.opcode]

/-- An accepted READ answers C. -/
theorem answerData_read {s : State} (accepted : answerCode .read s = 0#4) : answerData .read s = s.regs.c := by
  rw [answerCode_eq_zero, ne_eq, legality_read, not_not] at accepted
  exact if_pos accepted

/-- Only an accepted READ and an accepted STATUS answer data (30_encoding.md R70). -/
theorem answerData_eq_zero {i : Instr} {s : State}
    (h : ¬ (answerCode i s = 0#4 ∧ (i = .read ∨ i = .status))) : answerData i s = 0#32 := by
  cases i with
  | read =>
    have early : s.ph ≠ .done := by simpa [answerCode_eq_zero, legality_read] using h
    exact if_neg early
  | status => exact absurd ⟨rfl, .inr rfl⟩ h
  | nop | startz | startn | pushb | pushw | finish | clear => rfl

/-- Settles O19: a word that decoding rejects is answered with the rejection's code, any other as its command is. -/
theorem everyCommandIsAnsweredOnce : Obligations.EveryCommandIsAnsweredOnce := by
  intro s w later
  rcases decode_cases s.hasScan w with ⟨-, e⟩ | ⟨-, -, e⟩ | ⟨-, -, i, e, rfl⟩
  · exact ⟨_, _, step_of_decode_error later e, rfl, rfl, by simp [e, rejectCode]⟩
  · exact ⟨_, _, step_of_decode_error later e, rfl, rfl, by simp [e, rejectCode]⟩
  · obtain ⟨t, ran, host, rsp⟩ := exec_answers (s := { s with host := later }) (decode_wellFormed e)
    refine ⟨t, rspWord (answerCode i s) (answerData i s),
      (stepRunsTheDecodedCommand s _ later i e).trans ran, host, rsp, ?_⟩
    simp only [codeOf_rspWord, dataOf_rspWord, opOf_encode, opcode_eq_six, opcode_eq_seven, e]
    obtain ⟨small, notOp, notArg⟩ := answerCode_range i s
    refine ⟨small, by simp [notOp], by simp [notArg], by simp [answerCode_eq_three], ?read, ?status, answerData_eq_zero⟩
    case read => rintro accepted rfl; exact answerData_read accepted
    case status => rintro - rfl; rfl

end Sys2Proof.Machine
end

section
/-! Programs (00_scope.md R8, R9): a command's meaning does not depend on what the host presents after it, so a program
runs as the meanings of its commands one after the other. -/

namespace Sys2Proof.Machine

theorem endMessage_presented (program : List Instr) (s : State) :
    endMessage (presented program s) = presented program (endMessage s) := by
  rw [endMessage_eq, endMessage_eq]
  rfl

theorem pushByte_presented (program : List Instr) (byte : Byte) (s : State) :
    pushByte byte (presented program s) = presented program (pushByte byte s) := by
  rcases pushByte_cases byte s with ⟨stops, e⟩ | ⟨passes, full, e⟩ | ⟨passes, room, e⟩ <;> rw [e]
  · rw [pushByte_ends byte (presented program s) stops, endMessage_presented]
  · exact pushByte_fills byte (presented program s) passes full
  · exact pushByte_stores byte (presented program s) passes room

theorem pushBytes_presented (program : List Instr) (bytes : List Byte) (s : State) :
    pushBytes bytes (presented program s) = presented program (pushBytes bytes s) := by
  induction bytes generalizing s with
  | nil => rfl
  | cons byte rest ih =>
    rw [pushBytes_cons, pushBytes_cons, presented_ph]
    by_cases inAbsorb : s.ph = .absorb
    · rw [if_pos inAbsorb, if_pos inAbsorb, pushByte_presented, ih]
    · rw [if_neg inAbsorb, if_neg inAbsorb, ih]

theorem inMessage_presented {effect : State → State} (program : List Instr) (s : State)
    (h : effect (presented program s) = presented program (effect s)) :
    inMessage effect (presented program s) = presented program (inMessage effect s) := by
  simp only [inMessage, presented_ph, presented_z, h]
  split <;> rfl

theorem exec_presented (program : List Instr) {i : Instr} {s t : State} (h : exec i s = .next t) :
    exec i (presented program s) = .next (presented program t) := by
  cases i with
  | nop | startn | status | clear => cases h; rfl
  | startz seed =>
    rw [exec_startz] at h ⊢
    cases h
    rw [presented_hasScan]
    split <;> rfl
  | pushb byte =>
    rw [exec_pushb] at h ⊢
    cases h
    rw [inMessage_presented program s (pushBytes_presented program _ s)]
  | pushw word =>
    rw [exec_pushw] at h ⊢
    cases h
    rw [inMessage_presented program s (pushBytes_presented program _ s)]
  | finish =>
    rw [exec_finish] at h ⊢
    cases h
    rw [inMessage_presented program s (endMessage_presented program s)]
  | read =>
    rw [exec_read] at h ⊢
    cases h
    rw [presented_ph]
    split <;> rfl

theorem runs_nil (s : State) : Runs [] s s := rfl

/-- A program runs as the meaning of its first command, then the rest. -/
theorem runs_cons {i : Instr} {program : List Instr} {s t u : State} (built : i.wellFormed s.hasScan = true)
    (first : exec i s = .next t) (rest : Runs program t u) : Runs (i :: program) s u := by
  have decoded := decodeOfEncodeIsTheCommand s.hasScan i built
  have stepped : step (presented (i :: program) s) = .next (presented program t) :=
    calc step (presented (i :: program) s)
        = exec i (presented program s) :=
          stepRunsTheDecodedCommand s (encode i) (programEvents program ++ s.host) i decoded
      _ = .next (presented program t) := exec_presented program first
  have chained : core.run (program.length + 1) (presented (i :: program) s) =
      core.run program.length (presented program t) := by
    simp only [Host.Core.run, core, stepped]
  exact chained.trans rest

end Sys2Proof.Machine
end

section
/-! The loop of HASH, delivered byte by byte (45_result_status.md R178, 42_block_mixer.md R130). -/

namespace Sys2Proof.Machine

/-- The loop stops where fewer than twelve bytes are left. -/
theorem hashBlocks_short (h : HashState) {left : List Byte} (short : left.length < 12) :
    hashBlocks h left = (h, left) := by
  unfold hashBlocks
  split
  · simp at short; omega
  · rfl

/-- Bytes that come later are added to those the loop has left. -/
theorem hashBlocks_append (h : HashState) (bytes more : List Byte) :
    hashBlocks h (bytes ++ more) = hashBlocks (hashBlocks h bytes).1 ((hashBlocks h bytes).2 ++ more) := by
  induction h, bytes using hashBlocks.induct with
  | case1 h k0 k1 k2 k3 k4 k5 k6 k7 k8 k9 k10 k11 rest ih => simpa [hashBlocks] using ih
  | case2 h left short => rw [hashBlocks.eq_2 h left short]

/-- The twelve lanes of BUF in order (10_state.md R25). -/
def lanes (s : State) : List Byte := List.ofFn fun k => memRead k s

@[simp] theorem length_lanes (s : State) : (lanes s).length = 12 := List.length_ofFn

theorem getElem_lanes (s : State) (k : Fin 12) {below : k.val < (lanes s).length} :
    (lanes s)[k.val] = memRead k s :=
  List.getElem_ofFn below

theorem lanes_memWrite_eq_set (k : Fin 12) (byte : Byte) (s : State) :
    lanes (memWrite k byte s) = (lanes s).set k.val byte := by
  refine List.ext_getElem (by simp) fun j below _ => ?_
  have lane : j < 12 := by simpa using below
  rw [getElem_lanes _ ⟨j, lane⟩, List.getElem_set, memRead_memWrite]
  by_cases written : k.val = j
  · rw [if_pos written, if_pos (Fin.ext written.symm)]
  · rw [if_neg written, if_neg fun e => written (congrArg Fin.val e).symm, getElem_lanes s ⟨j, lane⟩]

/-- A full block is what BLOCK absorbs (42_block_mixer.md R120, R129). -/
theorem hashBlocks_lanes (h : HashState) (s : State) :
    hashBlocks h (lanes s) = (mix (absorb (bpack s) h), []) := rfl

/-- The lane written at N is the next byte of those below N (41_scan_frontend.md R102). -/
theorem take_lanes_memWrite (byte : Byte) (s : State) :
    (lanes (memWrite s.n byte s)).take (s.n.val + 1) = (lanes s).take s.n.val ++ [byte] := by
  have inside : s.n.val < (lanes s).length := by simp
  rw [lanes_memWrite_eq_set, List.set_eq_take_append_cons_drop, if_pos inside]
  simp [List.take_append]

/-- The block is in ABSORB with mode `z`, its registers are those of HASH's loop over `bytes`, and the lanes below N are
what the loop has left (42_block_mixer.md R130). -/
structure Delivered (seed : Word) (z : Bool) (bytes : List Byte) (s : State) : Prop where
  inAbsorb : s.ph = .absorb
  mode : s.z = z
  loop : hashBlocks (initRegs seed) bytes = (s.regs, (lanes s).take s.n.val)

theorem Delivered.started (seed : Word) (z : Bool) (s : State) : Delivered seed z [] (startMessage z seed s) :=
  ⟨rfl, rfl, rfl⟩

theorem Delivered.responded {seed : Word} {z : Bool} {bytes : List Byte} {s : State} (data : Word)
    (h : Delivered seed z bytes s) : Delivered seed z bytes (respond data s) :=
  ⟨h.inAbsorb, h.mode, h.loop⟩

/-- One more byte, which does not end the message, is one more byte of the loop. -/
theorem Delivered.pushedByte {seed : Word} {z : Bool} {bytes : List Byte} {s : State} {byte : Byte}
    (h : Delivered seed z bytes s) (passes : z = true → byte ≠ 0x00#8) :
    Delivered seed z (bytes ++ [byte]) (pushByte byte s) := by
  obtain ⟨inAbsorb, mode, loop⟩ := h
  have unscanned : scan byte s = false := Bool.eq_false_of_not_eq_true fun stops =>
    have ⟨hz, zero⟩ := (scan_iff byte s).mp stops
    passes (mode.symm.trans hz) zero
  have extended : hashBlocks (initRegs seed) (bytes ++ [byte]) =
      hashBlocks s.regs ((lanes (memWrite s.n byte s)).take (s.n.val + 1)) := by
    rw [hashBlocks_append, loop, take_lanes_memWrite]
  rcases pushByte_cases byte s with ⟨stops, -⟩ | ⟨-, full, e⟩ | ⟨-, room, e⟩
  · simp [unscanned] at stops
  · refine e ▸ ⟨inAbsorb, mode, extended.trans ?_⟩
    rw [full, List.take_of_length_le (by simp), hashBlocks_lanes]
    rfl
  · refine e ▸ ⟨inAbsorb, mode, extended.trans ?_⟩
    exact hashBlocks_short _ (by simp; omega)

theorem Delivered.pushedBytes {seed : Word} {z : Bool} {bytes more : List Byte} {s : State}
    (h : Delivered seed z bytes s) (passes : z = true → 0x00#8 ∉ more) :
    Delivered seed z (bytes ++ more) (pushBytes more s) := by
  induction more generalizing bytes s with
  | nil => simpa using h
  | cons byte rest ih =>
    have first : z = true → byte ≠ 0x00#8 := fun hz e => passes hz (by simp [e])
    have others : z = true → 0x00#8 ∉ rest := fun hz mem => passes hz (by simp [mem])
    rw [pushBytes_cons, if_pos h.inAbsorb, List.append_cons]
    exact ih (h.pushedByte first) others

/-- A command that may stand inside a message delivers the bytes it carries. -/
theorem Delivered.executes {seed : Word} {z : Bool} {bytes : List Byte} {s : State} {i : Instr}
    (h : Delivered seed z bytes s) (inside : delivers i = true) (passes : z = true → 0x00#8 ∉ carried i) :
    ∃ t, exec i s = .next t ∧ Delivered seed z (bytes ++ carried i) t := by
  cases i with
  | nop => exact ⟨_, exec_nop s, by simpa [carried] using h.responded 0#32⟩
  | status => exact ⟨_, exec_status s, by simpa [carried] using h.responded (statusWord s)⟩
  | pushb byte =>
    refine ⟨_, exec_pushb byte s, ?_⟩
    rw [inMessage_absorb _ s h.inAbsorb]
    exact (h.pushedBytes passes).responded 0#32
  | pushw word =>
    refine ⟨_, exec_pushw word s, ?_⟩
    rw [inMessage_absorb _ s h.inAbsorb]
    exact (h.pushedBytes passes).responded 0#32
  | startz | startn | finish | read | clear => cases inside

/-- Only STARTZ depends on HAS_SCAN, and it does not stand inside a message. -/
theorem wellFormed_of_delivers {i : Instr} (inside : delivers i = true) (hasScan : Bool) :
    i.wellFormed hasScan = true := by
  cases i with
  | startz => cases inside
  | nop | startn | pushb | pushw | finish | read | status | clear => rfl

/-- Commands inside a message deliver the bytes they carry, and whatever follows them runs from there. -/
theorem Delivered.runs {seed : Word} {z : Bool} {bytes : List Byte} {s : State} {program : List Instr}
    (h : Delivered seed z bytes s) (inside : ∀ i ∈ program, delivers i = true)
    (passes : z = true → 0x00#8 ∉ carriedBy program) :
    ∃ t, Delivered seed z (bytes ++ carriedBy program) t ∧
      ∀ rest u, Runs rest t u → Runs (program ++ rest) s u := by
  induction program generalizing bytes s with
  | nil => exact ⟨s, by simpa [carriedBy] using h, fun _ _ ran => ran⟩
  | cons i program ih =>
    have bytesOf : carriedBy (i :: program) = carried i ++ carriedBy program := List.flatMap_cons
    simp only [bytesOf, List.mem_append, not_or] at passes
    obtain ⟨insideFirst, insideRest⟩ := List.forall_mem_cons.mp inside
    obtain ⟨t, first, delivered⟩ := h.executes insideFirst fun hz => (passes hz).1
    obtain ⟨v, all, run⟩ := ih delivered insideRest fun hz => (passes hz).2
    refine ⟨v, by simpa [bytesOf] using all, fun rest u ran => ?_⟩
    exact runs_cons (wellFormed_of_delivers insideFirst _) first (run rest u ran)

/-- The tail packed from the lanes is that of HASH (43_tail_packer.md R140, R143). -/
theorem hashTail_take_lanes (h : HashState) (s : State) :
    hashTail h ((lanes s).take s.n.val) =
      if 1 ≤ s.n.val then tadd (tpack s.n.val fun k => memRead k s) h else h := by
  have length : ((lanes s).take s.n.val).length = s.n.val := by simp
  have bytes : tpack s.n.val (fun k => ((lanes s).take s.n.val).getD k.val 0x00#8) =
      tpack s.n.val fun k => memRead k s :=
    tpack_congr fun k below => by simp [below, getElem_lanes]
  rw [hashTail, length, bytes]

/-- Ending the message leaves HASH of the delivered bytes in C (45_result_status.md R178). -/
theorem Delivered.ret_endMessage {seed : Word} {z : Bool} {bytes : List Byte} {s : State}
    (h : Delivered seed z bytes s) : ret (endMessage s) = hashOf bytes seed := by
  rw [endMessage_eq]
  simp only [ret, hashOf, h.loop, hashTail_take_lanes]

/-- A command that ends the message, and the READ after it, answer HASH of the delivered bytes. -/
theorem Delivered.runs_read {seed : Word} {z : Bool} {bytes : List Byte} {s : State} {i : Instr}
    (h : Delivered seed z bytes s) (built : i.wellFormed s.hasScan = true)
    (ends : exec i s = .next (respond 0#32 (endMessage s))) :
    ∃ t, Runs [i, .read] s t ∧ t.rsp = some (0x0#4 ++ hashOf bytes seed) := by
  refine ⟨_, runs_cons built ends (runs_cons rfl (exec_read _) (runs_nil _)), ?_⟩
  rw [if_pos (by simp), ret_respond, h.ret_endMessage]
  rfl

theorem wellFormed_starting {z hasScan : Bool} (seed : Word) (built : z = true → hasScan = true) :
    (starting z seed).wellFormed hasScan = true := by
  cases z with
  | true => exact built rfl
  | false => rfl

theorem exec_starting {z : Bool} (seed : Word) {s : State} (built : z = true → s.hasScan = true) :
    exec (starting z seed) s = .next (startMessage z seed s) := by
  cases z with
  | true => exact (exec_startz seed s).trans (by rw [if_pos (built rfl)])
  | false => exact exec_startn seed s

/-- The byte 0x00 in Z mode ends the message (41_scan_frontend.md R103, R104). -/
theorem exec_terminator (s : State) (inAbsorb : s.ph = .absorb) (mode : s.z = true) :
    exec (.pushb 0x00#8) s = .next (respond 0#32 (endMessage s)) := by
  rw [← pushByte_ends 0x00#8 s ((scan_iff _ s).mpr ⟨mode, rfl⟩)]
  exact congrArg Host.Outcome.next (inMessage_absorb (pushByte 0x00#8) s inAbsorb)

/-- FINISH ends the message in either mode (44_finalize.md R164). -/
theorem exec_finish_absorb (s : State) (inAbsorb : s.ph = .absorb) :
    exec .finish s = .next (respond 0#32 (endMessage s)) :=
  congrArg Host.Outcome.next (inMessage_absorb endMessage s inAbsorb)

/-- A START, commands inside the message, one that ends it, and READ answer HASH of the bytes carried
(45_result_status.md R179, R180). -/
theorem runs_message {s : State} {z : Bool} {seed : Word} {program : List Instr} {ending : Instr}
    (built : z = true → s.hasScan = true) (inside : ∀ i ∈ program, delivers i = true)
    (passes : z = true → 0x00#8 ∉ carriedBy program) (everywhere : ∀ hasScan, ending.wellFormed hasScan = true)
    (ends : ∀ u : State, u.ph = .absorb → u.z = z → exec ending u = .next (respond 0#32 (endMessage u))) :
    ∃ t, Runs (starting z seed :: program ++ [ending, .read]) s t ∧
      t.rsp = some (0x0#4 ++ hashOf (carriedBy program) seed) := by
  obtain ⟨u, delivered, run⟩ := (Delivered.started seed z s).runs inside passes
  obtain ⟨t, ended, rsp⟩ := delivered.runs_read (everywhere _) (ends u delivered.inAbsorb delivered.mode)
  exact ⟨t, runs_cons (wellFormed_starting seed built) (exec_starting seed built) (run _ t ended), rsp⟩

end Sys2Proof.Machine
end

section
/-! The pseudo-commands (30_encoding.md R77). -/

namespace Sys2Proof.Machine

theorem carriedBy_pushs (text : List Byte) : carriedBy (pushs text) = text := by
  induction text with
  | nil => rfl
  | cons byte rest ih => exact congrArg (byte :: ·) ih

theorem delivers_pushs (text : List Byte) : ∀ i ∈ pushs text, delivers i = true := by
  simp [pushs, delivers]

/-- Settles O47: in Z mode the byte 0x00 ends the message, in N mode FINISH. -/
theorem pseudoCommandsHashTheText : Obligations.PseudoCommandsHashTheText := by
  intro s text seed frontend noZero
  have noZero' : 0x00#8 ∉ carriedBy (pushs text) := by rwa [carriedBy_pushs]
  obtain ⟨t, runsZ, rspZ⟩ := runs_message (z := true) (seed := seed) (fun _ => frontend) (delivers_pushs text)
    (fun _ => noZero') (fun _ => rfl) fun u => exec_terminator u
  obtain ⟨u, runsN, rspN⟩ := runs_message (z := false) (seed := seed) (s := s) (by simp) (delivers_pushs text)
    (fun _ => noZero') (fun _ => rfl) fun u inAbsorb _ => exec_finish_absorb u inAbsorb
  rw [carriedBy_pushs] at rspZ rspN
  exact ⟨t, u, runsZ, runsN, rspZ, rspN⟩

end Sys2Proof.Machine
end

section
/-! The session commands (40_session_init.md R90 to R94), each as the whole of its next state. -/

namespace Sys2Proof.Machine

/-- The response {OK, 0} as one word, code over data (30_encoding.md R66). -/
theorem rspWord_ok_zero : rspWord okCode 0#32 = 0x000000000#36 := by decide

/-- Answering {OK, 0} writes the response port only. -/
theorem respond_zero (s : State) : respond 0#32 s = { s with rsp := some 0x000000000#36 } := by
  rw [respond, rspWord_ok_zero]

/-- What both START commands leave of a state, micro-operation INIT included (40_session_init.md R91, R92, R94). -/
theorem startMessage_eq (z : Bool) (seed : Word) (s : State) :
    startMessage z seed s = { s with
      regs := ⟨0x9e3779b9#32, 0x9e3779b9#32, seed⟩
      n := 0
      z := z
      ph := .absorb
      rsp := some 0x000000000#36 } := by
  rw [startMessage, respond_zero, init, initRegs, golden]

/-- Settles O25: NOP is the answer alone. -/
theorem nopOnlyAnswers : Obligations.NopOnlyAnswers := by
  intro s
  rw [exec_nop, respond_zero]

/-- Settles O26: both commands begin a message, and STARTZ asks for the frontend first. -/
theorem startBeginsAMessage : Obligations.StartBeginsAMessage := by
  intro seed s
  constructor
  · intro frontend
    rw [exec_startz, if_pos frontend, startMessage_eq]
  · rw [exec_startn, startMessage_eq]

/-- Settles O27: CLEAR is the answer in the cleared state. -/
theorem clearResetsTheControlState : Obligations.ClearResetsTheControlState := by
  intro s
  rw [exec_clear, respond_zero, cleared]

end Sys2Proof.Machine
end

section
/-! Key delivery (41_scan_frontend.md R102 to R104): what a byte that does not end the message leaves of each part of
the state, and PUSHB from it. -/

namespace Sys2Proof.Machine

/-- A byte put above the bits in use adds its place value (20_memory.md R47). -/
theorem toNat_or_zext_shiftLeft {x : Word} {k : Nat} (byte : Byte) (below : x.toNat < 2 ^ k) (fits : k + 8 ≤ 32) :
    (x ||| (zext byte <<< k)).toNat = x.toNat + 2 ^ k * byte.toNat := by
  have bound : byte.toNat <<< k < 2 ^ 32 :=
    calc byte.toNat <<< k = byte.toNat * 2 ^ k := Nat.shiftLeft_eq ..
      _ < 2 ^ 8 * 2 ^ k := Nat.mul_lt_mul_of_pos_right byte.isLt (Nat.two_pow_pos k)
      _ = 2 ^ (k + 8) := by rw [← Nat.pow_add, Nat.add_comm]
      _ ≤ 2 ^ 32 := Nat.pow_le_pow_right (by decide) fits
  have shifted : (zext byte <<< k).toNat = byte.toNat <<< k := by
    rw [zext, BitVec.toNat_shiftLeft, BitVec.toNat_setWidth_of_le (by decide), Nat.mod_eq_of_lt bound]
  rw [BitVec.toNat_or, shifted, Nat.or_comm, ← Nat.shiftLeft_add_eq_or_of_lt below, Nat.shiftLeft_eq, Nat.mul_comm,
    Nat.add_comm]

/-- Four bytes joined by shifts are their little-endian value (42_block_mixer.md R120, 20_memory.md R47). -/
theorem le32_eq_leWord (p0 p1 p2 p3 : Byte) : le32 p0 p1 p2 p3 = leWord p0 p1 p2 p3 := by
  have h0 : (zext p0).toNat = p0.toNat := BitVec.toNat_setWidth_of_le (by decide)
  have h1 := toNat_or_zext_shiftLeft (x := zext p0) (k := 8) p1 (by omega) (by decide)
  have h2 := toNat_or_zext_shiftLeft (x := zext p0 ||| zext p1 <<< 8) (k := 16) p2 (by omega) (by decide)
  have h3 := toNat_or_zext_shiftLeft (x := zext p0 ||| zext p1 <<< 8 ||| zext p2 <<< 16) (k := 24) p3 (by omega)
    (by decide)
  refine BitVec.eq_of_toNat_eq ?_
  rw [le32, leWord, BitVec.toNat_ofNat]
  omega

/-- ABSORB of twelve bytes, each word said as a sum (42_block_mixer.md R120, R121). -/
def absorbBytes (b : Fin 12 → Byte) (h : HashState) : HashState where
  a := h.a + leWord (b 0) (b 1) (b 2) (b 3)
  b := h.b + leWord (b 4) (b 5) (b 6) (b 7)
  c := h.c + leWord (b 8) (b 9) (b 10) (b 11)

theorem absorb_bpack (s : State) (h : HashState) : absorb (bpack s) h = absorbBytes (fun k => memRead k s) h := by
  simp only [absorb, bpack, absorbBytes, le32_eq_leWord]

theorem scan_eq_false {byte : Byte} {s : State} (passes : s.z = false ∨ byte ≠ 0x00#8) : scan byte s = false := by
  rcases passes with hz | hb
  · simp [scan, hz]
  · simp [scan, hb]

/-! What PUSHBYTE does with a byte that does not end the message, part by part (41_scan_frontend.md R103). -/

theorem memRead_pushByte {byte : Byte} {s : State} (passes : scan byte s = false) (k : Fin 12) :
    memRead k (pushByte byte s) = if k = s.n then byte else memRead k s := by
  rw [← memRead_memWrite]
  rcases pushByte_cases byte s with ⟨stops, -⟩ | ⟨-, -, e⟩ | ⟨-, _, e⟩
  · simp [passes] at stops
  · rw [e]; rfl
  · rw [e]; rfl

theorem pushByte_n {byte : Byte} {s : State} (passes : scan byte s = false) :
    (pushByte byte s).n.val = (s.n.val + 1) % 12 := by
  rcases pushByte_cases byte s with ⟨stops, -⟩ | ⟨-, full, e⟩ | ⟨-, room, e⟩
  · simp [passes] at stops
  · rw [e, full]; rfl
  · rw [e, Nat.mod_eq_of_lt (by omega)]

/-- The byte that fills the buffer makes the block run on the lanes as they then are (42_block_mixer.md R129). -/
theorem pushByte_regs_full {byte : Byte} {s : State} (passes : scan byte s = false) (full : s.n.val = 11) :
    (pushByte byte s).regs = mix (absorbBytes (fun k => memRead k (pushByte byte s)) s.regs) := by
  rw [← absorb_bpack, pushByte_fills byte s passes full]
  rfl

theorem pushByte_regs_room {byte : Byte} {s : State} (passes : scan byte s = false) (room : s.n.val < 11) :
    (pushByte byte s).regs = s.regs := by
  rw [pushByte_stores byte s passes room]
  rfl

theorem pushByte_frame {byte : Byte} {s : State} (passes : scan byte s = false) :
    pushByte byte s = { s with
      buf := (pushByte byte s).buf, n := (pushByte byte s).n, regs := (pushByte byte s).regs } := by
  rcases pushByte_cases byte s with ⟨stops, -⟩ | ⟨-, -, e⟩ | ⟨-, _, e⟩
  · simp [passes] at stops
  · rw [e]; rfl
  · rw [e]; rfl

/-- PUSHB in ABSORB delivers its byte (41_scan_frontend.md R104). -/
theorem exec_pushb_absorb (byte : Byte) {s : State} (inAbsorb : s.ph = .absorb) :
    exec (.pushb byte) s = .next (respond 0#32 (pushByte byte s)) :=
  congrArg Host.Outcome.next (inMessage_absorb (pushByte byte) s inAbsorb)

/-- Settles O28: with room left, PUSHBYTE is BUFW and the count. -/
theorem pushbStoresTheByte : Obligations.PushbStoresTheByte := by
  intro byte s inAbsorb passes room
  have unscanned := scan_eq_false passes
  refine ⟨_, exec_pushb_absorb byte inAbsorb, ?count, ?lane, fun k other => ?others, ?frame⟩
  case count => exact (pushByte_n unscanned).trans (Nat.mod_eq_of_lt (by omega))
  case lane => exact (memRead_pushByte unscanned s.n).trans (if_pos rfl)
  case others => exact (memRead_pushByte unscanned k).trans (if_neg other)
  case frame =>
    rw [respond_zero, pushByte_stores byte s unscanned room]
    rfl

/-- Settles O29: the byte that fills the buffer is stored first, so that the block finds it in lane 11. -/
theorem twelfthByteRunsTheBlock : Obligations.TwelfthByteRunsTheBlock := by
  intro byte s inAbsorb passes full
  have unscanned := scan_eq_false passes
  have lane := memRead_pushByte unscanned
  rw [full] at lane
  refine ⟨_, exec_pushb_absorb byte inAbsorb, ?count, ?regs, (lane 11).trans (if_pos rfl),
    fun k other => (lane k).trans (if_neg other), ?frame⟩
  case count => exact Fin.ext ((pushByte_n unscanned).trans (by rw [full]; rfl))
  case regs =>
    rw [respond_regs, pushByte_regs_full unscanned (by rw [full]; rfl), funext lane]
    rfl
  case frame => exact congrArg (respond 0#32) (pushByte_frame unscanned)

end Sys2Proof.Machine
end

section
/-! PUSHW (41_scan_frontend.md R105): its bytes over the block boundary, and PUSHW as four PUSHB; and what is ignored after
the terminator (R106). -/

namespace Sys2Proof.Machine

/-- The twelve bytes of the block that `byte 0`, `byte 1`, ... complete from the state `s`: the lanes below N, then the
new ones (42_block_mixer.md R129). -/
def blockByte (byte : Nat → Byte) (s : State) (k : Fin 12) : Byte :=
  if k < s.n then memRead k s else byte (k.val - s.n.val)

/-- The lanes of `t` are those of `s` after `byte 0` to `byte (count - 1)` have been written from lane N on, lane 0
coming after lane 11 (41_scan_frontend.md R102, R103, 20_memory.md R51). -/
structure StoredLanes (byte : Nat → Byte) (s : State) (count : Nat) (t : State) : Prop where
  counted : t.n.val = (s.n.val + count) % 12
  new : ∀ j, j < count → memRead (Fin.ofNat 12 (s.n.val + j)) t = byte j
  old : ∀ k : Fin 12, (∀ j, j < count → Fin.ofNat 12 (s.n.val + j) ≠ k) → memRead k t = memRead k s

/-- One more byte. With fewer than twelve before it, it falls on none of their lanes. -/
theorem StoredLanes.pushed {byte : Nat → Byte} {s t : State} {count : Nat} (h : StoredLanes byte s count t)
    (few : count < 12) (passes : scan (byte count) t = false) :
    StoredLanes byte s (count + 1) (pushByte (byte count) t) := by
  obtain ⟨counted, new, old⟩ := h
  have lane : Fin.ofNat 12 (s.n.val + count) = t.n := Fin.ext counted.symm
  refine ⟨by rw [pushByte_n passes]; omega, fun j below => ?new, fun k other => ?old⟩
  case new =>
    rw [memRead_pushByte passes]
    by_cases last : j = count
    · rw [last, if_pos lane]
    · have distinct : Fin.ofNat 12 (s.n.val + j) ≠ t.n := fun e => by
        have : (s.n.val + j) % 12 = t.n.val := congrArg Fin.val e
        omega
      rw [if_neg distinct, new j (by omega)]
  case old =>
    have notLast : k ≠ t.n := fun e => other count (by omega) (lane.trans e.symm)
    rw [memRead_pushByte passes, if_neg notLast, old k fun j below => other j (by omega)]

/-- When lane 11 has just been written, the lanes are the bytes of the block. -/
theorem StoredLanes.eq_blockByte {byte : Nat → Byte} {s t : State} {count : Nat} (h : StoredLanes byte s count t)
    (reached : s.n.val + count = 12) : (fun k => memRead k t) = blockByte byte s := by
  funext k
  by_cases below : k < s.n
  · rw [blockByte, if_pos below]
    refine h.old k fun j hj e => ?_
    have : (s.n.val + j) % 12 = k.val := congrArg Fin.val e
    have : k.val < s.n.val := below
    omega
  · have above : s.n.val ≤ k.val := not_lt.mp below
    have lane : Fin.ofNat 12 (s.n.val + (k.val - s.n.val)) = k :=
      Fin.ext (show (s.n.val + (k.val - s.n.val)) % 12 = k.val by omega)
    rw [blockByte, if_neg below, ← h.new _ (by omega), lane]

/-- `t` is `s` after the delivery of `byte 0` to `byte (count - 1)`, none of which ends the message: the block has run
if they reached lane 11, and nothing but BUF, N and the registers is written (41_scan_frontend.md R103, R105). -/
structure Stored (byte : Nat → Byte) (s : State) (count : Nat) (t : State) : Prop where
  lanes : StoredLanes byte s count t
  room : s.n.val + count < 12 → t.regs = s.regs
  full : 12 ≤ s.n.val + count → t.regs = mix (absorbBytes (blockByte byte s) s.regs)
  frame : t = { s with buf := t.buf, n := t.n, regs := t.regs }

theorem Stored.nothing (byte : Nat → Byte) (s : State) : Stored byte s 0 s where
  lanes := ⟨(Nat.mod_eq_of_lt s.n.isLt).symm, fun j below => absurd below j.not_lt_zero, fun _ _ => rfl⟩
  room := fun _ => rfl
  full := fun reached => absurd s.n.isLt (by omega)
  frame := rfl

/-- One more byte: with fewer than twelve before it, at most one block runs. -/
theorem Stored.pushed {byte : Nat → Byte} {s t : State} {count : Nat} (h : Stored byte s count t) (few : count < 12)
    (passes : scan (byte count) t = false) : Stored byte s (count + 1) (pushByte (byte count) t) := by
  obtain ⟨lanes, room, full, frame⟩ := h
  have counted := lanes.counted
  have lanes' := lanes.pushed few passes
  refine ⟨lanes', fun before => ?room, fun reached => ?full, ?frame⟩
  case room => rw [pushByte_regs_room passes (by omega), room (by omega)]
  case full =>
    by_cases last : s.n.val + (count + 1) = 12
    · rw [pushByte_regs_full passes (by omega), room (by omega), lanes'.eq_blockByte last]
    · have := s.n.isLt
      rw [pushByte_regs_room passes (by omega), full (by omega)]
  case frame =>
    refine (pushByte_frame passes).trans ?_
    exact congrArg (fun u : State => { u with
      buf := (pushByte (byte count) t).buf
      n := (pushByte (byte count) t).n
      regs := (pushByte (byte count) t).regs }) frame

theorem pushBytes_append (bytes more : List Byte) (s : State) :
    pushBytes (bytes ++ more) s = pushBytes more (pushBytes bytes s) := List.foldl_append

theorem stored_pushBytes {byte : Nat → Byte} {s : State} (count : Nat) (few : count ≤ 12) (inAbsorb : s.ph = .absorb)
    (passes : ∀ j, j < count → s.z = false ∨ byte j ≠ 0x00#8) :
    Stored byte s count (pushBytes ((List.range count).map byte) s) := by
  induction count with
  | zero => exact .nothing byte s
  | succ count ih =>
    have before := ih (by omega) fun j below => passes j (by omega)
    have ph := congrArg State.ph before.frame
    have z := congrArg State.z before.frame
    rw [List.range_succ, List.map_append, pushBytes_append, List.map_singleton, pushBytes_cons,
      if_pos (ph.trans inAbsorb), pushBytes_nil]
    exact before.pushed (by omega) (scan_eq_false (z ▸ passes count (by omega)))

/-- Settles O32: the four bytes of a PUSHW, one after the other. -/
theorem pushwStoresFourBytes : Obligations.PushwStoresFourBytes := by
  intro word s byte inAbsorb passes
  have stored := stored_pushBytes (byte := byte) 4 (by decide) inAbsorb fun j below =>
    passes.imp_right fun nonzero => nonzero j below
  obtain ⟨⟨counted, new, old⟩, room, full, frame⟩ := stored
  refine ⟨respond 0#32 (pushBytes ((List.range 4).map byte) s), ?_, counted, new, old, room, full, ?_⟩
  · exact congrArg Host.Outcome.next (inMessage_absorb (pushBytes (wordBytes word)) s inAbsorb)
  · exact congrArg (respond 0#32) frame

/-- Delivery neither reads nor writes the response port (41_scan_frontend.md R103). -/
theorem pushByte_respond (byte : Byte) (data : Word) (s : State) :
    pushByte byte (respond data s) = respond data (pushByte byte s) := by
  rcases pushByte_cases byte s with ⟨stops, e⟩ | ⟨passes, full, e⟩ | ⟨passes, room, e⟩ <;> rw [e]
  · rw [pushByte_ends byte (respond data s) stops, endMessage_eq, endMessage_eq]
    rfl
  · exact pushByte_fills byte (respond data s) passes full
  · exact pushByte_stores byte (respond data s) passes room

theorem pushBytes_respond (bytes : List Byte) (data : Word) (s : State) :
    pushBytes bytes (respond data s) = respond data (pushBytes bytes s) := by
  induction bytes generalizing s with
  | nil => rfl
  | cons byte rest ih =>
    rw [pushBytes_cons, pushBytes_cons, respond_ph]
    by_cases inAbsorb : s.ph = .absorb
    · rw [if_pos inAbsorb, if_pos inAbsorb, pushByte_respond, ih]
    · rw [if_neg inAbsorb, if_neg inAbsorb, ih]

/-- In DONE of a Z-mode message the commands of a message are ignored (41_scan_frontend.md R106). -/
theorem inMessage_ignored (effect : State → State) {s : State} (done : s.ph = .done) (mode : s.z = true) :
    inMessage effect s = respond 0#32 s := by
  simp [inMessage, done, mode]

/-- Two pushes in every phase: a rejection is latched once, and the message that the first one ends is a Z-mode message,
in which the second is ignored (41_scan_frontend.md R105 to R107). -/
theorem inMessage_pushBytes_append (bytes more : List Byte) (s : State) :
    inMessage (pushBytes more) (inMessage (pushBytes bytes) s) = inMessage (pushBytes (bytes ++ more)) s := by
  rcases inMessage_cases (pushBytes bytes) s with ⟨inAbsorb, e⟩ | ⟨done, mode, e⟩ | ⟨refused, e⟩ <;> rw [e]
  · rw [inMessage_absorb _ s inAbsorb, pushBytes_append]
    have ph := pushBytes_ph bytes inAbsorb
    by_cases stops : s.z = true ∧ 0x00#8 ∈ bytes
    · rw [if_pos stops] at ph
      obtain ⟨z, -⟩ := pushBytes_keeps bytes s
      have ended : pushBytes more (pushBytes bytes s) = pushBytes bytes s := pushBytes_ended more _ (by simp [ph])
      obtain ⟨mode, -⟩ := stops
      rw [inMessage_ignored _ (s := respond 0#32 (pushBytes bytes s)) ph (z.trans mode), respond_respond, ended]
    · rw [if_neg stops] at ph
      rw [inMessage_absorb _ (respond 0#32 (pushBytes bytes s)) ph, pushBytes_respond, respond_respond]
  · rw [inMessage_ignored _ (s := respond 0#32 s) done mode, inMessage_ignored _ done mode, respond_respond]
  · have rejected : ∀ effect (u : State), u.ph = s.ph → u.z = s.z → inMessage effect u = reject .eSeq u := by
      intro effect u ph z
      rcases refused with idle | ⟨done, mode⟩
      · simp [inMessage, ph, idle]
      · simp [inMessage, ph, z, done, mode]
    rw [rejected _ s rfl rfl, rejected _ _ (reject_ph ..) (reject_z ..), reject_reject]

/-- Settles O31: the four commands deliver, one list after the other, the bytes of the one. -/
theorem pushwIsFourPushb : Obligations.PushwIsFourPushb := by
  intro word s
  refine ⟨_, _, _, exec_pushb _ s, exec_pushb _ _, exec_pushb _ _, ?_⟩
  rw [exec_pushb, exec_pushw, inMessage_pushBytes_append, inMessage_pushBytes_append, inMessage_pushBytes_append]
  rfl

/-- A push or FINISH in DONE of a Z-mode message is accepted and ignored (41_scan_frontend.md R106). -/
theorem exec_ignored {i : Instr} {s : State} (done : s.ph = .done) (mode : s.z = true)
    (command : i = .finish ∨ (∃ byte, i = .pushb byte) ∨ ∃ word, i = .pushw word) :
    i.wellFormed s.hasScan = true ∧ exec i s = .next (respond 0#32 s) := by
  rcases command with rfl | ⟨byte, rfl⟩ | ⟨word, rfl⟩
  · exact ⟨rfl, by rw [exec_finish, inMessage_ignored _ done mode]⟩
  · exact ⟨rfl, by rw [exec_pushb, inMessage_ignored _ done mode]⟩
  · exact ⟨rfl, by rw [exec_pushw, inMessage_ignored _ done mode]⟩

/-- Settles O46: the first command leaves the answer, and every further one the same answer again. -/
theorem commandsAfterTheTerminatorAreIgnored : Obligations.CommandsAfterTheTerminatorAreIgnored := by
  intro s program done mode nonempty commands
  rw [← respond_zero]
  induction program generalizing s with
  | nil => exact absurd rfl nonempty
  | cons i rest ih =>
    obtain ⟨first, others⟩ := List.forall_mem_cons.mp commands
    obtain ⟨built, ignored⟩ := exec_ignored done mode first
    refine runs_cons built ignored ?_
    by_cases last : rest = []
    · exact last ▸ runs_nil _
    · exact ih (respond 0#32 s) done mode last others

end Sys2Proof.Machine
end

section
/-! What delivery leaves when a message has not ended (42_block_mixer.md R130, 20_memory.md R51). -/

namespace Sys2Proof.Machine

/-- The loop drops whole blocks of twelve bytes (45_result_status.md R178). -/
theorem hashBlocks_left (h : HashState) (bytes : List Byte) :
    ∃ blocks, 12 * blocks ≤ bytes.length ∧ (hashBlocks h bytes).2 = bytes.drop (12 * blocks) := by
  induction h, bytes using hashBlocks.induct with
  | case1 h k0 k1 k2 k3 k4 k5 k6 k7 k8 k9 k10 k11 rest ih =>
    obtain ⟨blocks, whole, left⟩ := ih
    exact ⟨blocks + 1, by simp; omega, by simpa [hashBlocks, Nat.mul_add] using left⟩
  | case2 h left short => exact ⟨0, Nat.zero_le _, by rw [hashBlocks.eq_2 h left short]; rfl⟩

/-- The lanes below N are the delivered bytes beyond the last whole block (10_state.md R25). -/
theorem Delivered.take_lanes {seed : Word} {z : Bool} {bytes : List Byte} {s : State}
    (h : Delivered seed z bytes s) : (lanes s).take s.n.val = bytes.drop (12 * (bytes.length / 12)) := by
  obtain ⟨blocks, whole, left⟩ := hashBlocks_left (initRegs seed) bytes
  rw [h.loop] at left
  have length : min s.n.val 12 = bytes.length - 12 * blocks := by simpa using congrArg List.length left
  have all : blocks = bytes.length / 12 := by omega
  exact all ▸ left

theorem Delivered.n_eq {seed : Word} {z : Bool} {bytes : List Byte} {s : State} (h : Delivered seed z bytes s) :
    s.n.val = bytes.length % 12 := by
  have length : min s.n.val 12 = bytes.length - 12 * (bytes.length / 12) := by
    simpa using congrArg List.length h.take_lanes
  omega

theorem Delivered.memRead_below {seed : Word} {z : Bool} {bytes : List Byte} {s : State}
    (h : Delivered seed z bytes s) {k : Fin 12} (below : k < s.n) :
    some (memRead k s) = bytes[12 * (bytes.length / 12) + k.val]? :=
  calc some (memRead k s)
      = ((lanes s).take s.n.val)[k.val]? := by
        rw [List.getElem?_take_of_lt below, List.getElem?_eq_getElem (by simp), getElem_lanes]
    _ = bytes[12 * (bytes.length / 12) + k.val]? := by rw [h.take_lanes, List.getElem?_drop]

/-- A START and the deliveries of its message run to a state of HASH's loop, from any state (40_session_init.md R91,
R92). -/
theorem runs_delivered {s : State} {z : Bool} {seed : Word} {program : List Instr}
    (built : z = true → s.hasScan = true) (inside : ∀ i ∈ program, delivers i = true)
    (passes : z = true → 0x00#8 ∉ carriedBy program) :
    ∃ t, Runs (starting z seed :: program) s t ∧ Delivered seed z (carriedBy program) t := by
  obtain ⟨t, delivered, run⟩ := (Delivered.started seed z s).runs inside passes
  have ran : Runs program (startMessage z seed s) t := by simpa using run [] t (runs_nil t)
  exact ⟨t, runs_cons (wellFormed_starting seed built) (exec_starting seed built) ran, delivered⟩

/-- Settles O42: the state reached is one of HASH's loop, in which N and the lanes say what the loop has left. -/
theorem deliveryFollowsTheHashLoop : Obligations.DeliveryFollowsTheHashLoop := by
  intro s start seed program inside begins
  obtain ⟨z, rfl, built, passes⟩ : ∃ z, start = starting z seed ∧ (z = true → s.hasScan = true) ∧
      (z = true → 0x00#8 ∉ carriedBy program) := by
    rcases begins with rfl | ⟨rfl, frontend, noZero⟩
    · exact ⟨false, rfl, by simp, by simp⟩
    · exact ⟨true, rfl, fun _ => frontend, fun _ => noZero⟩
  obtain ⟨t, ran, delivered⟩ := runs_delivered built inside passes
  exact ⟨t, ran, delivered.inAbsorb, (congrArg Prod.fst delivered.loop).symm, delivered.n_eq,
    fun _ below => delivered.memRead_below below⟩

end Sys2Proof.Machine
end

section
/-! The datapath of the block (42_block_mixer.md R118 to R128): rotation, the block words, and the lines of the mix. -/

namespace Sys2Proof.Machine

/-- The bits of a rotation: below `k mod 32` they have come round from the top, elsewhere they have moved up
(42_block_mixer.md R118). -/
theorem getLsbD_rot (x : Word) (k : Nat) {i : Nat} (below : i < 32) :
    (rot x k).getLsbD ((i + k) % 32) = x.getLsbD i := by
  have inside : (i + k) % 32 < 32 := Nat.mod_lt _ (by decide)
  rw [rot, BitVec.getLsbD_rotateLeft]
  by_cases round : (i + k) % 32 < k % 32
  · have source : 32 - k % 32 + (i + k) % 32 = i := by omega
    rw [decide_eq_true round, cond_true, source]
  · have source : (i + k) % 32 - k % 32 = i := by omega
    rw [decide_eq_false round, cond_false, decide_eq_true inside, Bool.true_and, source]

theorem rot_eq_shifts (x : Word) {k : Nat} (small : k < 32) : rot x k = (x <<< k) ||| (x >>> (32 - k)) := by
  rw [rot, BitVec.rotateLeft_def, Nat.mod_eq_of_lt small]

theorem rot_zero (x : Word) : rot x 0 = x := by
  rw [rot_eq_shifts x (by decide), BitVec.shiftLeft_zero, BitVec.ushiftRight_eq_zero (by decide), BitVec.or_zero]

/-- Settles O7: the bits for every amount, the two shifts below 32, and the amount 0. -/
theorem rotationMovesEveryBit : Obligations.RotationMovesEveryBit := fun x k =>
  ⟨fun _ below => getLsbD_rot x k below, fun _ small => rot_eq_shifts x (by omega), rot_zero x⟩

/-- Settles O12: the shifts of BPACK, word by word, are sums. -/
theorem blockWordsAreLittleEndian : Obligations.BlockWordsAreLittleEndian := by
  intro s
  simp only [bpack, le32_eq_leWord]

/-- Settles O8: each line's three assignments, one after the other, are the values written from those at its start. -/
theorem mixLinesAreAsWritten : Obligations.MixLinesAreAsWritten := fun _ _ _ =>
  ⟨rfl, rfl, rfl, rfl, rfl, rfl, rfl⟩

end Sys2Proof.Machine
end

section
/-! MIX and FINAL as compositions of permutations of the register state (42_block_mixer.md R128, 44_finalize.md R162). -/

namespace Sys2Proof.Machine

/-- The registers under the names they have for the next line: each line works on the registers of the one before it,
moved on by one. -/
def turn : Equiv.Perm HashState where
  toFun h := ⟨h.b, h.c, h.a⟩
  invFun h := ⟨h.c, h.a, h.b⟩
  left_inv _ := rfl
  right_inv _ := rfl

/-- A line of the mix with its rotation amount open. It is undone from its last assignment back. -/
def mixLine (k : Nat) : Equiv.Perm HashState where
  toFun h := ⟨(h.a - h.c) ^^^ rot h.c k, h.b, h.c + h.b⟩
  invFun h := ⟨(h.a ^^^ rot (h.c - h.b) k) + (h.c - h.b), h.b, h.c - h.b⟩
  left_inv h := by simp
  right_inv h := by simp

/-- A line of the finalization with its rotation amount open. -/
def finLine (k : Nat) : Equiv.Perm HashState where
  toFun h := ⟨h.a, h.b, (h.c ^^^ h.b) - rot h.b k⟩
  invFun h := ⟨h.a, h.b, (h.c + rot h.b k) ^^^ h.b⟩
  left_inv h := by simp
  right_inv h := by simp

/-- MIX is one line six times, with the six amounts; after two full turns the registers have their names again. -/
theorem mix_eq_lines : mix = turn * mixLine 4 * turn * mixLine 19 * turn * mixLine 16 *
    turn * mixLine 8 * turn * mixLine 6 * turn * mixLine 4 := rfl

/-- FINAL is one line seven times, with the seven amounts. -/
theorem final_eq_lines : final = finLine 24 * turn * finLine 14 * turn * finLine 4 * turn * finLine 16 *
    turn * finLine 25 * turn * finLine 11 * turn * finLine 14 := rfl

/-- Settles O11: both are compositions of permutations. -/
theorem mixAndFinalAreBijections : Obligations.MixAndFinalAreBijections :=
  ⟨mix_eq_lines ▸ Equiv.bijective _, final_eq_lines ▸ Equiv.bijective _⟩

end Sys2Proof.Machine
end

section
/-! The tail (43_tail_packer.md R140, R141): a byte not taken counts as a zero byte, so all eleven additions may be made, and
sums of shifted bytes are little-endian words. -/

namespace Sys2Proof.Machine

/-- A byte moved up by `k` is worth its place value, wrapped to 32 bits (20_memory.md R47, R49). -/
theorem zext_shiftLeft_eq_ofNat (byte : Byte) (k : Nat) : zext byte <<< k = BitVec.ofNat 32 (2 ^ k * byte.toNat) := by
  refine BitVec.eq_of_toNat_eq ?_
  rw [zext, BitVec.toNat_shiftLeft, BitVec.toNat_setWidth_of_le (by decide), BitVec.toNat_ofNat, Nat.shiftLeft_eq,
    Nat.mul_comm]

theorem zext_eq_ofNat (byte : Byte) : zext byte = BitVec.ofNat 32 byte.toNat := by
  simpa using zext_shiftLeft_eq_ofNat byte 0

/-- Additions from the highest byte down build the little-endian word (43_tail_packer.md R141 (ii)). -/
theorem add_shifted_bytes_eq_leWord (p0 p1 p2 p3 : Byte) :
    (zext p3 <<< 24) + (zext p2 <<< 16) + (zext p1 <<< 8) + zext p0 = leWord p0 p1 p2 p3 := by
  rw [zext_shiftLeft_eq_ofNat, zext_shiftLeft_eq_ofNat, zext_shiftLeft_eq_ofNat, zext_eq_ofNat,
    ← BitVec.ofNat_add, ← BitVec.ofNat_add, ← BitVec.ofNat_add, leWord]
  exact congrArg _ (by omega)

theorem zext_zero : zext 0x00#8 = 0#32 := rfl

/-- With zero bytes from `r` on, the conditions on `r` can be dropped: all eleven additions are as good as the first `r`
(43_tail_packer.md R141 (ii), (vi)). -/
theorem tpack_eq_tpack_eleven {r : Nat} {byte : Fin 12 → Byte} (zeros : ∀ k : Fin 12, r ≤ k.val → byte k = 0x00#8) :
    tpack r byte = tpack 11 byte := by
  have skipped : ∀ k : Fin 12, r < k.val + 1 → byte k = 0x00#8 := fun k above => zeros k (Nat.le_of_lt_succ above)
  have made {n : Nat} {more less : Words} (nothing : r < n → less = more) : (if n ≤ r then more else less) = more :=
    ite_eq_left_iff.mpr fun above => nothing (Nat.lt_of_not_le above)
  simp +contextual -zeta [tpack, made, skipped, zext_zero]

/-- All eleven additions: three little-endian words, the highest byte of the third zero (43_tail_packer.md R141 (iv)). -/
theorem tpack_eleven (byte : Fin 12 → Byte) :
    tpack 11 byte =
      { toA := leWord (byte 0) (byte 1) (byte 2) (byte 3)
        toB := leWord (byte 4) (byte 5) (byte 6) (byte 7)
        toC := leWord (byte 8) (byte 9) (byte 10) 0x00#8 } := by
  simp [tpack, ← add_shifted_bytes_eq_leWord, zext_zero]

/-- Settles O13: TPACK does not see that the bytes from `r` on are made zero, and with those zeros it makes all eleven
additions. -/
theorem tailWordsAreLittleEndian : Obligations.TailWordsAreLittleEndian := by
  intro r byte _ _ b
  calc tpack r byte
      _ = tpack r b := tpack_congr fun k below => (if_pos below).symm
      _ = tpack 11 b := tpack_eq_tpack_eleven fun k above => if_neg (Nat.not_lt.mpr above)
      _ = _ := tpack_eleven b

end Sys2Proof.Machine
end

section
/-! The finalization (44_finalize.md): its seven lines, and the commands that end a message. With N at most 11 the tail is
a block whose bytes from lane N on are zero, and with N = 0 that block adds nothing. -/

namespace Sys2Proof.Machine

/-- Settles O9: each line's two assignments, one after the other, are the value written from those at its start. -/
theorem finalLinesAreAsWritten : Obligations.FinalLinesAreAsWritten := fun _ _ _ =>
  ⟨rfl, rfl, rfl, rfl, rfl, rfl, rfl, rfl⟩

/-- The byte that lane `k` contributes at the end of a message: the lanes from N on hold none of its bytes
(43_tail_packer.md R141, R144). -/
def tailByte (s : State) (k : Fin 12) : Byte := if k < s.n then memRead k s else 0x00#8

theorem tailByte_of_le {s : State} {k : Fin 12} (above : s.n ≤ k) : tailByte s k = 0x00#8 :=
  if_neg (Fin.not_lt.mpr above)

/-- N never passes lane 11, so the highest byte of the third tail word is zero (43_tail_packer.md R141 (iv)). -/
theorem tailByte_eleven (s : State) : tailByte s 11 = 0x00#8 := tailByte_of_le (Fin.le_last s.n)

theorem absorbBytes_zero (h : HashState) : absorbBytes (fun _ => 0x00#8) h = h := by
  simp [absorbBytes, leWord]

/-- TAIL absorbs the padded lanes, for N = 0 as well, where it does not run TPACK (43_tail_packer.md R142, R143). -/
theorem tail_regs (s : State) : (tail s).regs = absorbBytes (tailByte s) s.regs := by
  rw [tail_eq]
  by_cases left : 1 ≤ s.n.val
  · have words := tailWordsAreLittleEndian s.n.val (fun k => memRead k s) left (Nat.le_of_lt_succ s.n.isLt)
    rw [if_pos left, words, tadd, absorbBytes, tailByte_eleven]
    rfl
  · have zeros : tailByte s = fun _ => 0x00#8 := funext fun k => tailByte_of_le (by omega)
    rw [if_neg left, zeros, absorbBytes_zero]

/-- END: TAIL, FINAL, and the phase DONE (44_finalize.md R165). -/
theorem endMessage_eq_final (s : State) :
    endMessage s = { s with regs := final (absorbBytes (tailByte s) s.regs), n := 0, ph := .done } := by
  rw [← tail_regs, endMessage_eq, tail_eq]

/-- Either ending command runs END and answers (41_scan_frontend.md R103, 44_finalize.md R164). -/
theorem exec_ending {i : Instr} {s : State} (inAbsorb : s.ph = .absorb)
    (ending : i = .finish ∨ (i = .pushb 0x00#8 ∧ s.z = true)) :
    exec i s = .next (respond 0#32 (endMessage s)) := by
  rcases ending with rfl | ⟨rfl, mode⟩
  · exact exec_finish_absorb s inAbsorb
  · exact exec_terminator s inAbsorb mode

/-- Settles O30: both commands are END, and END absorbs the padded lanes before FINAL. -/
theorem endingAMessageFinalizes : Obligations.EndingAMessageFinalizes := by
  intro i s inAbsorb ending b
  rw [exec_ending inAbsorb ending, respond_zero, endMessage_eq_final, absorbBytes, tailByte_eleven]
  rfl

end Sys2Proof.Machine
end

section
/-! READ (45_result_status.md R175, R176), and programs put one after the other (00_scope.md R8). -/

namespace Sys2Proof.Machine

/-- The response {E_SEQ, 0} as one word (30_encoding.md R66). -/
theorem rspWord_eSeq_zero : rspWord (rejectCode .eSeq) 0#32 = 0x300000000#36 := by decide

/-- The code that E_SEQ leaves in a clear latch (60_exceptions.md R196). -/
theorem latchError_eSeq (err : BitVec 2) : latchError err .eSeq = if err = 0#2 then 3#2 else err := rfl

/-- Settles O33: RET is all of C, and outside DONE the command is a rejection. -/
theorem readAnswersTheResult : Obligations.ReadAnswersTheResult := by
  intro s
  constructor
  · intro done
    rw [exec_read, if_pos done]
    rfl
  · intro early
    rw [exec_read, if_neg early, reject, rspWord_eSeq_zero, latchError_eSeq]

/-- What the host presents later changes no answer to a command word, rejected or not. -/
theorem acceptCommand_presented (program : List Instr) {w : CmdWord} {s t : State}
    (h : acceptCommand w s = .next t) :
    acceptCommand w (presented program s) = .next (presented program t) := by
  cases decoded : decode s.hasScan w with
  | ok i =>
    rw [acceptCommand_of_decode_ok decoded] at h
    rw [acceptCommand_of_decode_ok (s := presented program s) decoded, exec_presented program h]
  | error r =>
    rw [acceptCommand_of_decode_error decoded] at h
    cases h
    exact acceptCommand_of_decode_error (s := presented program s) decoded

/-- A program runs one command word at a time (00_scope.md R8, R9). -/
theorem runs_cons_iff {i : Instr} {program : List Instr} {s u : State} :
    Runs (i :: program) s u ↔ ∃ t, acceptCommand (encode i) s = .next t ∧ Runs program t u := by
  obtain ⟨t, accepted⟩ := acceptCommand_next (encode i) s
  have stepped : step (presented (i :: program) s) = .next (presented program t) :=
    (step_command s (encode i) (programEvents program ++ s.host)).trans (acceptCommand_presented program accepted)
  have chained : core.run (program.length + 1) (presented (i :: program) s) =
      core.run program.length (presented program t) := by
    simp only [Host.Core.run, core, stepped]
  simp only [accepted, Host.Outcome.next.injEq, exists_eq_left']
  exact Eq.congr chained rfl

/-- Two programs, one after the other, are one program. -/
theorem Runs.append {program more : List Instr} {s t u : State} (first : Runs program s t) (rest : Runs more t u) :
    Runs (program ++ more) s u := by
  induction program generalizing s with
  | nil => cases first; exact rest
  | cons i program ih =>
    obtain ⟨v, accepted, ran⟩ := runs_cons_iff.mp first
    exact runs_cons_iff.mpr ⟨v, accepted, ih ran⟩

/-- What every command inside a message keeps, when the bytes it carries are counted, a whole program keeps. -/
theorem runs_of_executes {P : List Byte → State → Prop}
    (executes : ∀ {i bytes s}, delivers i = true → P bytes s →
      ∃ t, exec i s = .next t ∧ P (bytes ++ carried i) t)
    {program : List Instr} (inside : ∀ i ∈ program, delivers i = true) {bytes : List Byte} {s : State}
    (h : P bytes s) : ∃ t, Runs program s t ∧ P (bytes ++ carriedBy program) t := by
  induction program generalizing bytes s with
  | nil => exact ⟨s, runs_nil s, by simpa [carriedBy] using h⟩
  | cons i program ih =>
    have bytesOf : carriedBy (i :: program) = carried i ++ carriedBy program := List.flatMap_cons
    obtain ⟨insideFirst, insideRest⟩ := List.forall_mem_cons.mp inside
    obtain ⟨t, first, kept⟩ := executes insideFirst h
    obtain ⟨u, ran, all⟩ := ih insideRest kept
    exact ⟨u, runs_cons (wellFormed_of_delivers insideFirst _) first ran, by simpa [bytesOf] using all⟩

end Sys2Proof.Machine
end

section
/-! The bytes that count in a Z-mode message (41_scan_frontend.md R101, 45_result_status.md R178): hash32 is HASH of
what stands before the first 0x00. -/

namespace Sys2Proof.Machine

theorem efflen_of_notMem {key : List Byte} (noZero : 0x00#8 ∉ key) : efflen key = key.length := by
  induction key with
  | nil => rfl
  | cons byte rest ih =>
    obtain ⟨first, others⟩ := List.ne_and_not_mem_of_not_mem_cons noZero
    rw [efflen, if_neg first.symm, ih others, List.length_cons]

theorem efflen_append_zero {key : List Byte} (noZero : 0x00#8 ∉ key) (more : List Byte) :
    efflen (key ++ 0x00#8 :: more) = key.length := by
  induction key with
  | nil => rfl
  | cons byte rest ih =>
    obtain ⟨first, others⟩ := List.ne_and_not_mem_of_not_mem_cons noZero
    rw [List.cons_append, efflen, if_neg first.symm, ih others, List.length_cons]

theorem hash32_of_notMem {key : List Byte} (noZero : 0x00#8 ∉ key) (seed : Word) :
    hash32 key seed = hashOf key seed := by
  rw [hash32, efflen_of_notMem noZero, List.take_length]

theorem hash32_append_zero {key : List Byte} (noZero : 0x00#8 ∉ key) (more : List Byte) (seed : Word) :
    hash32 (key ++ 0x00#8 :: more) seed = hashOf key seed := by
  rw [hash32, efflen_append_zero noZero, List.take_left]

/-- Bytes after the terminator do not count (41_scan_frontend.md R106). -/
theorem hash32_append {bytes : List Byte} (zero : 0x00#8 ∈ bytes) (more : List Byte) (seed : Word) :
    hash32 (bytes ++ more) seed = hash32 bytes seed := by
  obtain ⟨key, rest, rfl, noZero⟩ := List.eq_append_cons_of_mem zero
  rw [List.append_assoc, List.cons_append, hash32_append_zero noZero, hash32_append_zero noZero]

end Sys2Proof.Machine
end

section
/-! Whole messages (45_result_status.md R179 to R181): what the block holds after any pushes, whether or not the
terminator was among them, and what READ then answers. -/

namespace Sys2Proof.Machine

/-- The result of a message that carries `bytes`: hash32 in Z mode, HASH of all the bytes in N mode (45_result_status.md
R179, R180). -/
def messageHash (z : Bool) (bytes : List Byte) (seed : Word) : Word :=
  match z with
  | true => hash32 bytes seed
  | false => hashOf bytes seed

/-- Without a byte 0x00 the mode makes no difference (45_result_status.md R180). -/
theorem messageHash_of_notMem {z : Bool} {bytes : List Byte} (noZero : z = true → 0x00#8 ∉ bytes) (seed : Word) :
    messageHash z bytes seed = hashOf bytes seed := by
  cases z with
  | true => exact hash32_of_notMem (noZero rfl) seed
  | false => rfl

/-- A message has ended, and `result` is what READ answers (45_result_status.md R175, R176). -/
structure Finished (result : Word) (s : State) : Prop where
  done : s.ph = .done
  answer : ret s = result

theorem Finished.responded {result : Word} {s : State} (data : Word) (h : Finished result s) :
    Finished result (respond data s) :=
  ⟨h.done, h.answer⟩

/-- In DONE the commands of a message are ignored or rejected (60_exceptions.md R193): the result stands. -/
theorem Finished.inMessage {result : Word} {s : State} (h : Finished result s) (effect : State → State) :
    Finished result (inMessage effect s) := by
  rcases inMessage_cases effect s with ⟨inAbsorb, -⟩ | ⟨-, -, e⟩ | ⟨-, e⟩
  · exact absurd (inAbsorb.symm.trans h.done) (by decide)
  · exact e ▸ h.responded 0#32
  · exact e ▸ ⟨h.done, h.answer⟩

theorem Finished.executes {result : Word} {s : State} {i : Instr} (h : Finished result s) (inside : delivers i = true) :
    ∃ t, exec i s = .next t ∧ Finished result t := by
  cases i with
  | nop => exact ⟨_, exec_nop s, h.responded 0#32⟩
  | status => exact ⟨_, exec_status s, h.responded (statusWord s)⟩
  | pushb byte => exact ⟨_, exec_pushb byte s, h.inMessage _⟩
  | pushw word => exact ⟨_, exec_pushw word s, h.inMessage _⟩
  | startz | startn | finish | read | clear => cases inside

theorem Finished.runs {result : Word} {s : State} {program : List Instr} (h : Finished result s)
    (inside : ∀ i ∈ program, delivers i = true) : ∃ t, Runs program s t ∧ Finished result t :=
  runs_of_executes (P := fun _ => Finished result) (fun inside h => h.executes inside) inside (bytes := []) h

/-- READ after a program that ends a message (45_result_status.md R176). -/
theorem Finished.runs_read {result : Word} {program : List Instr} {s t : State} (h : Finished result t)
    (ran : Runs program s t) : ∃ u, Runs (program ++ [.read]) s u ∧ u.rsp = some (0x0#4 ++ result) := by
  obtain ⟨answers, -⟩ := readAnswersTheResult t
  exact ⟨_, ran.append (runs_cons rfl (answers h.done) (runs_nil _)), congrArg (fun c => some (0x0#4 ++ c)) h.answer⟩

/-- A message has been sent `bytes`: it is still in HASH's loop over them, or it is a Z-mode message that the 0x00 among
them has ended (41_scan_frontend.md R103, R106). -/
inductive Received (seed : Word) (z : Bool) (bytes : List Byte) (s : State) : Prop
  | pending (delivered : Delivered seed z bytes s) (noZero : z = true → 0x00#8 ∉ bytes)
  | ended (mode : z = true) (zero : 0x00#8 ∈ bytes) (finished : Finished (hash32 bytes seed) s)

theorem Received.responded {seed : Word} {z : Bool} {bytes : List Byte} {s : State} (data : Word)
    (h : Received seed z bytes s) : Received seed z bytes (respond data s) := by
  cases h with
  | pending delivered noZero => exact .pending (delivered.responded data) noZero
  | ended mode zero finished => exact .ended mode zero (finished.responded data)

/-- END in the loop of HASH finishes with the result of the bytes so far (44_finalize.md R165). -/
theorem Delivered.finished {seed : Word} {z : Bool} {bytes : List Byte} {s : State} (h : Delivered seed z bytes s) :
    Finished (hashOf bytes seed) (endMessage s) :=
  ⟨endMessage_ph s, h.ret_endMessage⟩

/-- One more byte in ABSORB joins the loop or, as the terminator, ends the message (41_scan_frontend.md R103). -/
theorem Delivered.receivesByte {seed : Word} {z : Bool} {bytes : List Byte} {s : State}
    (h : Delivered seed z bytes s) (noZero : z = true → 0x00#8 ∉ bytes) (byte : Byte) :
    Received seed z (bytes ++ [byte]) (pushByte byte s) := by
  by_cases terminator : z = true ∧ byte = 0x00#8
  · obtain ⟨mode, rfl⟩ := terminator
    rw [pushByte_ends _ s ((scan_iff _ s).mpr ⟨h.mode.trans mode, rfl⟩)]
    refine .ended mode (by simp) ?_
    rw [hash32_append_zero (noZero mode)]
    exact h.finished
  · have passes : z = true → byte ≠ 0x00#8 := fun mode zero => terminator ⟨mode, zero⟩
    exact .pending (h.pushedByte passes) fun mode => by simp [noZero mode, (passes mode).symm]

/-- Bytes after the terminator are received without effect (41_scan_frontend.md R106). -/
theorem Finished.received {seed : Word} {z : Bool} {bytes : List Byte} {s : State}
    (h : Finished (hash32 bytes seed) s) (mode : z = true) (zero : 0x00#8 ∈ bytes) (more : List Byte) :
    Received seed z (bytes ++ more) s := by
  refine .ended mode (List.mem_append_left more zero) ?_
  rw [hash32_append zero]
  exact h

/-- The bytes of a push: those after the terminator are not delivered, and do not count (41_scan_frontend.md R105). -/
theorem Received.pushedBytes {seed : Word} {z : Bool} {bytes : List Byte} {s : State} (h : Received seed z bytes s)
    (more : List Byte) : Received seed z (bytes ++ more) (pushBytes more s) := by
  induction more generalizing bytes s with
  | nil => simpa using h
  | cons byte rest ih =>
    cases h with
    | pending delivered noZero =>
      rw [pushBytes_cons, if_pos delivered.inAbsorb, List.append_cons]
      exact ih (delivered.receivesByte noZero byte)
    | ended mode zero finished =>
      rw [pushBytes_ended _ s (by simp [finished.done])]
      exact finished.received mode zero _

/-- A push in ABSORB is executed, a push after the terminator is ignored (41_scan_frontend.md R104 to R106). -/
theorem Received.pushed {seed : Word} {z : Bool} {bytes : List Byte} {s : State} (h : Received seed z bytes s)
    (more : List Byte) : Received seed z (bytes ++ more) (inMessage (pushBytes more) s) := by
  cases h with
  | pending delivered noZero =>
    rw [inMessage_absorb _ s delivered.inAbsorb]
    exact ((Received.pending delivered noZero).pushedBytes more).responded 0#32
  | ended mode zero finished =>
    exact (finished.inMessage _).received mode zero more

theorem Received.executes {seed : Word} {z : Bool} {bytes : List Byte} {s : State} {i : Instr}
    (h : Received seed z bytes s) (inside : delivers i = true) :
    ∃ t, exec i s = .next t ∧ Received seed z (bytes ++ carried i) t := by
  cases i with
  | nop => exact ⟨_, exec_nop s, by simpa [carried] using h.responded 0#32⟩
  | status => exact ⟨_, exec_status s, by simpa [carried] using h.responded (statusWord s)⟩
  | pushb byte => exact ⟨_, exec_pushb byte s, h.pushed _⟩
  | pushw word => exact ⟨_, exec_pushw word s, h.pushed _⟩
  | startz | startn | finish | read | clear => cases inside

/-- FINISH ends a message that has not ended, and changes nothing of one that has (44_finalize.md R164). -/
theorem Received.finish {seed : Word} {z : Bool} {bytes : List Byte} {s : State} (h : Received seed z bytes s) :
    Finished (messageHash z bytes seed) (inMessage endMessage s) := by
  cases h with
  | pending delivered noZero =>
    rw [inMessage_absorb _ s delivered.inAbsorb, messageHash_of_notMem noZero]
    exact delivered.finished.responded 0#32
  | ended mode zero finished =>
    subst mode
    exact finished.inMessage endMessage

/-- A START and any pushes run from any state (40_session_init.md R91, R92). -/
theorem runs_received {s : State} {z : Bool} (seed : Word) {program : List Instr}
    (built : z = true → s.hasScan = true) (inside : ∀ i ∈ program, delivers i = true) :
    ∃ t, Runs (starting z seed :: program) s t ∧ Received seed z (carriedBy program) t := by
  have started : Received seed z [] (startMessage z seed s) := .pending (.started seed z s) (by simp)
  obtain ⟨t, ran, received⟩ := runs_of_executes (fun inside h => h.executes inside) inside started
  exact ⟨t, runs_cons (wellFormed_starting seed built) (exec_starting seed built) ran, received⟩

/-- A message that FINISH closes, with pushes of any kind before it, is read as the result of the bytes they carry
(45_result_status.md R179, R180). -/
theorem runs_finished_message {s : State} {z : Bool} (seed : Word) {program after : List Instr}
    (built : z = true → s.hasScan = true) (inside : ∀ i ∈ program, delivers i = true)
    (insideAfter : ∀ i ∈ after, delivers i = true) :
    ∃ t, Runs (starting z seed :: program ++ .finish :: after ++ [.read]) s t ∧
      t.rsp = some (0x0#4 ++ messageHash z (carriedBy program) seed) := by
  obtain ⟨u, begun, received⟩ := runs_received seed built inside
  obtain ⟨v, ran, finished⟩ := received.finish.runs insideAfter
  exact finished.runs_read (begun.append (runs_cons rfl (exec_finish u) ran))

theorem delivers_of_nop_or_status {program : List Instr} (quiet : ∀ i ∈ program, i = .nop ∨ i = .status) :
    ∀ i ∈ program, delivers i = true := by
  intro i mem
  rcases quiet i mem with rfl | rfl <;> rfl

/-- Settles O43: the terminator or FINISH has ended the message, or neither and READ comes too early. -/
theorem zModeMessagesComputeHash32 : Obligations.ZModeMessagesComputeHash32 := by
  intro s seed program after frontend inside quiet
  obtain ⟨t, ran, received⟩ := runs_received (z := true) seed (fun _ => frontend) inside
  refine ⟨fun zero => ?terminated, ?closed, fun noZero => ?early⟩
  case terminated =>
    cases received with
    | pending delivered noZero => exact absurd zero (noZero rfl)
    | ended mode zero finished => exact finished.runs_read ran
  case closed =>
    exact runs_finished_message (z := true) seed (fun _ => frontend) inside (delivers_of_nop_or_status quiet)
  case early =>
    cases received with
    | pending delivered noZero =>
      obtain ⟨-, rejects⟩ := readAnswersTheResult t
      have rejected := rejects (by simp [delivered.inAbsorb])
      exact ⟨_, ran.append (runs_cons rfl rejected (runs_nil _)), delivered.inAbsorb, rfl⟩
    | ended mode zero finished => exact absurd zero noZero

/-- Settles O44: in N mode no byte ends the message, and in Z mode the first 0x00 does. -/
theorem nModeMessagesComputeHash : Obligations.NModeMessagesComputeHash := by
  refine ⟨fun s seed program after inside quiet => ?messages, fun key more seed noZero => ?keys, ?whole, ?scanned⟩
  case messages =>
    exact runs_finished_message (z := false) seed (by simp) inside (delivers_of_nop_or_status quiet)
  case keys => exact ⟨hash32_of_notMem noZero seed, hash32_append_zero noZero more seed⟩
  case whole => decide
  case scanned => decide

/-- Settles O45: both messages are answered with the result of the same bytes. -/
theorem resultIsIndependentOfHistory : Obligations.ResultIsIndependentOfHistory := by
  intro s s' start seed program program' begins inside inside' same
  obtain ⟨z, rfl, built, built'⟩ : ∃ z, start = starting z seed ∧ (z = true → s.hasScan = true) ∧
      (z = true → s'.hasScan = true) := by
    rcases begins with rfl | ⟨rfl, frontend, frontend'⟩
    · exact ⟨false, rfl, by simp, by simp⟩
    · exact ⟨true, rfl, fun _ => frontend, fun _ => frontend'⟩
  obtain ⟨t, ran, rsp⟩ := runs_finished_message (after := []) seed built inside (by simp)
  obtain ⟨t', ran', rsp'⟩ := runs_finished_message (after := []) seed built' inside' (by simp)
  rw [List.append_assoc] at ran ran'
  exact ⟨t, t', ran, ran', by rw [rsp, rsp', same]⟩

end Sys2Proof.Machine
end

section
/-! Rejections (60_exceptions.md R193, R195, R196): whether by decoding or by the phase, a rejected word is answered by
`reject` alone, and an accepted command never latches an error. -/

namespace Sys2Proof.Machine

/-- Where the table says SEQ for the commands of a message, the phase check rejects (60_exceptions.md R193). -/
theorem inMessage_of_seq (effect : State → State) {s : State} (refused : legality .finish s.ph s.z = .seq) :
    inMessage effect s = reject .eSeq s := by
  rcases inMessage_cases effect s with ⟨ph, -⟩ | ⟨ph, z, -⟩ | ⟨-, e⟩
  · simp [legality, ph] at refused
  · simp [legality, ph, z] at refused
  · exact e

/-- Where the table says SEQ the command is the rejection E_SEQ (60_exceptions.md R193). -/
theorem exec_of_seq {i : Instr} {s : State} (refused : legality i s.ph s.z = .seq) :
    exec i s = .next (reject .eSeq s) := by
  cases i with
  | pushb byte =>
    rw [legality_pushb] at refused
    rw [exec_pushb, inMessage_of_seq _ refused]
  | pushw word =>
    rw [legality_pushw] at refused
    rw [exec_pushw, inMessage_of_seq _ refused]
  | finish => rw [exec_finish, inMessage_of_seq _ refused]
  | read => rw [exec_read, if_neg ((legality_read s.ph s.z).mp refused)]
  | nop | startz | startn | status | clear => simp [legality] at refused

/-- The table says ign for FINISH in DONE of a Z-mode message only (41_scan_frontend.md R106). -/
theorem legality_finish_ignored {ph : Phase} {z : Bool} (h : legality .finish ph z = .ignored) :
    ph = .done ∧ z = true := by
  cases ph <;> cases z <;> simp [legality] at h ⊢

/-- Where the table says ign the command is the answer alone (60_exceptions.md R193). -/
theorem exec_of_ignored {i : Instr} {s : State} (ignored : legality i s.ph s.z = .ignored) :
    exec i s = .next (respond 0#32 s) := by
  have answered (command : i = .finish ∨ (∃ byte, i = .pushb byte) ∨ ∃ word, i = .pushw word)
      (shared : legality .finish s.ph s.z = .ignored) : exec i s = .next (respond 0#32 s) := by
    obtain ⟨done, mode⟩ := legality_finish_ignored shared
    obtain ⟨-, answer⟩ := exec_ignored done mode command
    exact answer
  cases i with
  | pushb byte => exact answered (.inr (.inl ⟨byte, rfl⟩)) (legality_pushb byte s.ph s.z ▸ ignored)
  | pushw word => exact answered (.inr (.inr ⟨word, rfl⟩)) (legality_pushw word s.ph s.z ▸ ignored)
  | finish => exact answered (.inl rfl) ignored
  | read => cases ph : s.ph <;> simp [legality, ph] at ignored
  | nop | startz | startn | status | clear => simp [legality] at ignored

/-- The response {E_OP, 0} as one word (30_encoding.md R66). -/
theorem rspWord_eOp_zero : rspWord (rejectCode .eOp) 0#32 = 0x100000000#36 := by decide

/-- The code that E_OP leaves in a clear latch (60_exceptions.md R196). -/
theorem latchError_eOp (err : BitVec 2) : latchError err .eOp = if err = 0#2 then 1#2 else err := rfl

/-- Settles O22, entry by entry of the table; STARTZ without the frontend is the rejection E_OP. -/
theorem legalityOfCommandsInPhases : Obligations.LegalityOfCommandsInPhases := by
  intro i s
  refine ⟨fun built => ?table, ?unbuilt⟩
  case table =>
    cases entry : legality i s.ph s.z with
    | seq => exact (exec_of_seq entry).trans (by rw [reject, rspWord_eSeq_zero, latchError_eSeq])
    | ignored => exact (exec_of_ignored entry).trans (by rw [respond_zero])
    | ok =>
      obtain ⟨t, ran, -, rsp⟩ := exec_answers built
      have accepted : answerCode i s = 0#4 := (answerCode_eq_zero i s).mpr (by simp [entry])
      exact ⟨t, _, ran, rsp, by rw [codeOf_rspWord, accepted]⟩
  case unbuilt =>
    rintro seed rfl absent
    rw [exec_startz, if_neg (by simp [absent]), reject, rspWord_eOp_zero, latchError_eOp]

theorem rejectCode_ne_zero (r : Reject) : rejectCode r ≠ 0#4 := by
  cases r <;> decide

/-- A command word is either rejected, and the next state is `reject`'s, or it is a command that executes and answers OK
(30_encoding.md R69, R75, 60_exceptions.md R195). -/
theorem step_command_cases (s : State) (w : CmdWord) (later : List HostEvent) :
    (∃ k, step { s with host := .command w :: later } = .next (reject k { s with host := later })) ∨
    ∃ i t r, decode s.hasScan w = .ok i ∧ step { s with host := .command w :: later } = .next t ∧
      exec i { s with host := later } = .next t ∧ t.rsp = some r ∧ codeOf r = 0#4 := by
  cases decoded : decode s.hasScan w with
  | error k => exact .inl ⟨k, step_of_decode_error later decoded⟩
  | ok i =>
    have runs := stepRunsTheDecodedCommand s w later i decoded
    by_cases refused : legality i s.ph s.z = .seq
    · exact .inl ⟨.eSeq, runs.trans (exec_of_seq (s := { s with host := later }) refused)⟩
    · obtain ⟨t, ran, -, rsp⟩ := exec_answers (s := { s with host := later }) (decode_wellFormed decoded)
      refine .inr ⟨i, t, _, rfl, runs.trans ran, ran, rsp, ?_⟩
      rw [codeOf_rspWord, answerCode_eq_zero]
      exact refused

/-- Settles O23: a code other than OK comes from `reject` alone, which writes ERR and the response port. -/
theorem rejectionsChangeNothing : Obligations.RejectionsChangeNothing := by
  intro s t w later r stepped answered code
  rcases step_command_cases s w later with ⟨k, rejected⟩ | ⟨i, u, r', -, accepted, -, rsp, ok⟩
  · cases stepped.symm.trans rejected
    cases answered
    exact ⟨rfl, dataOf_rspWord _ _⟩
  · cases stepped.symm.trans accepted
    cases answered.symm.trans rsp
    exact absurd ok code

/-- CLEAR is the one accepted command that writes ERR (60_exceptions.md R196). -/
theorem err_of_accepted {i : Instr} {s t : State} {r : RspWord} (ran : exec i s = .next t) (rsp : t.rsp = some r)
    (accepted : codeOf r = 0#4) : t.err = if i = .clear then 0#2 else s.err := by
  by_cases clears : i = .clear
  · subst clears
    cases ran
    rfl
  rw [if_neg clears]
  cases effect_of_exec ran with
  | answers | starts => rfl
  | rejects k =>
    cases rsp
    rw [codeOf_rspWord] at accepted
    exact absurd accepted (rejectCode_ne_zero k)
  | clears command => exact absurd command clears
  | ends => exact endMessage_err s
  | delivers =>
    obtain ⟨-, err, -⟩ := pushBytes_keeps (carried i) s
    exact err

theorem opcode_eq_eight (i : Instr) : i.opcode = 8#4 ↔ i = .clear := by
  cases i <;> simp [Instr.opcode]

/-- Settles O24: a rejection latches its code, and an accepted command leaves ERR unless it is CLEAR. -/
theorem errorLatchKeepsTheFirstCode : Obligations.ErrorLatchKeepsTheFirstCode := by
  intro s w later
  rcases step_command_cases s w later with ⟨k, rejected⟩ | ⟨i, t, r, decoded, stepped, ran, rsp, accepted⟩
  · refine ⟨_, _, rejected, rfl, ?_, statusWord_err _⟩
    rw [codeOf_rspWord, if_pos (rejectCode_ne_zero k)]
    rfl
  · refine ⟨t, r, stepped, rsp, ?_, statusWord_err t⟩
    rw [if_neg (not_not.mpr accepted), err_of_accepted ran rsp accepted]
    simp only [← encode_of_decode decoded, opOf_encode, opcode_eq_eight]

end Sys2Proof.Machine
end

section
/-! The `done` line (60_exceptions.md R199): which commands raise it and which lower it. -/

namespace Sys2Proof.Machine

/-- The command ends the message in progress: FINISH, or a push that carries the terminator (41_scan_frontend.md R103,
44_finalize.md R164). -/
def endsMessage (s : State) (i : Instr) : Prop :=
  s.ph = .absorb ∧ (i = .finish ∨ s.z = true ∧ 0x00#8 ∈ carried i)

/-- The command abandons whatever message there is (40_session_init.md R91 to R93). -/
def abandonsMessage (i : Instr) : Prop := i = .clear ∨ ∃ seed, i = .startz seed ∨ i = .startn seed

theorem doneLine_iff (s : State) : doneLine s = true ↔ s.ph = .done := by
  simp [doneLine]

theorem doneLine_eq_false_iff (s : State) : doneLine s = false ↔ s.ph ≠ .done := by
  simp [doneLine]

/-- A delivery that ends the message leaves no byte in the buffer (44_finalize.md R165). -/
theorem pushBytes_n_of_done (bytes : List Byte) {s : State} (inAbsorb : s.ph = .absorb) :
    (pushBytes bytes s).ph = .done → (pushBytes bytes s).n = 0 := by
  refine pushBytes_induction (P := fun u => u.ph = .done → u.n = 0) bytes (fun byte u absorbing _ => ?_)
    (by simp [inAbsorb])
  rcases pushByte_cases byte u with ⟨-, e⟩ | ⟨-, -, e⟩ | ⟨-, _, e⟩ <;> simp [e, absorbing]

/-- A command after which `done` has risen has ended the message, and N is 0. -/
theorem Effect.of_rises {i : Instr} {s t : State} (effect : Effect i s t) (before : s.ph ≠ .done)
    (after : t.ph = .done) : endsMessage s i ∧ t.n = 0 := by
  cases effect with
  | answers | rejects => exact absurd after before
  | starts | clears => cases after
  | ends command inAbsorb => exact ⟨⟨inAbsorb, .inl command⟩, endMessage_n s⟩
  | delivers command inAbsorb =>
    refine ⟨⟨inAbsorb, .inr ?_⟩, pushBytes_n_of_done _ inAbsorb after⟩
    rw [respond_ph, pushBytes_ph _ inAbsorb] at after
    by_contra passes
    rw [if_neg passes] at after
    cases after

/-- A command after which `done` has fallen is one that abandons messages. -/
theorem Effect.of_falls {i : Instr} {s t : State} (effect : Effect i s t) (before : s.ph = .done)
    (after : t.ph ≠ .done) : abandonsMessage i := by
  cases effect with
  | answers | rejects => exact absurd before after
  | starts z seed command built => exact .inr ⟨seed, by cases z <;> simp [command, starting]⟩
  | clears command => exact .inl command
  | ends command inAbsorb | delivers command inAbsorb => simp [inAbsorb] at before

section
variable {s : State} {w : CmdWord} {i : Instr}

/-- The step that ends a message is taken, into DONE with N = 0 (44_finalize.md R165). -/
theorem step_of_endsMessage (later : List HostEvent) (decoded : decode s.hasScan w = .ok i) (ends : endsMessage s i) :
    ∃ t, step { s with host := .command w :: later } = .next t ∧ t.ph = .done ∧ t.n = 0 := by
  obtain ⟨t, stepped, ph⟩ := phaseMovesOnlyAlongTheArrows s (.command w) later
  have ⟨inAbsorb, how⟩ := ends
  have done : t.ph = .done := by
    simp only [decoded] at ph
    rcases how with rfl | ⟨mode, terminator⟩
    · exact ph.trans (if_pos inAbsorb)
    · cases i with
      | pushb byte => exact ph.trans (if_pos ⟨inAbsorb, mode, (List.mem_singleton.mp terminator).symm⟩)
      | pushw word => exact ph.trans (if_pos ⟨inAbsorb, mode, terminator⟩)
      | nop | startz | startn | finish | read | status | clear => cases terminator
  have ran : exec i { s with host := later } = .next t :=
    (stepRunsTheDecodedCommand s w later i decoded).symm.trans stepped
  obtain ⟨-, empty⟩ := (effect_of_exec ran).of_rises (by simp [inAbsorb]) done
  exact ⟨t, stepped, done, empty⟩

/-- The step of a command that abandons messages is taken, and leaves DONE. -/
theorem step_of_abandonsMessage (later : List HostEvent) (decoded : decode s.hasScan w = .ok i)
    (abandons : abandonsMessage i) :
    ∃ t, step { s with host := .command w :: later } = .next t ∧ t.ph ≠ .done := by
  obtain ⟨t, stepped, ph⟩ := phaseMovesOnlyAlongTheArrows s (.command w) later
  refine ⟨t, stepped, ?_⟩
  simp only [decoded] at ph
  rcases abandons with rfl | ⟨seed, rfl | rfl⟩ <;> simp [ph]

end

/-- A step that raises `done` runs a command that ends the message. -/
theorem endsMessage_of_step {s t : State} {e : HostEvent} {later : List HostEvent}
    (stepped : step { s with host := e :: later } = .next t) (before : s.ph ≠ .done) (after : t.ph = .done) :
    ∃ w i, e = .command w ∧ decode s.hasScan w = .ok i ∧ endsMessage s i := by
  cases stepEffect_of_step stepped with
  | nothing unused => cases unused
  | resets => cases after
  | rejects => exact absurd after before
  | runs w _ i _ next decoded effect =>
    cases next
    obtain ⟨ends, -⟩ := effect.of_rises before after
    exact ⟨w, i, rfl, decoded, ends⟩

/-- A step that lowers `done` is a reset or runs a command that abandons messages. -/
theorem abandonsMessage_of_step {s t : State} {e : HostEvent} {later : List HostEvent}
    (stepped : step { s with host := e :: later } = .next t) (before : s.ph = .done) (after : t.ph ≠ .done) :
    e = .reset ∨ ∃ w i, e = .command w ∧ decode s.hasScan w = .ok i ∧ abandonsMessage i := by
  cases stepEffect_of_step stepped with
  | nothing unused => cases unused
  | resets _ next =>
    cases next
    exact .inl rfl
  | rejects => exact absurd before after
  | runs w _ i _ next decoded effect =>
    cases next
    exact .inr ⟨w, i, rfl, decoded, effect.of_falls before after⟩

/-- Settles O38: the ending and abandoning commands by the table of phases, and nothing else by what a step can do. -/
theorem doneRisesAtTheEndOfAMessage : Obligations.DoneRisesAtTheEndOfAMessage := by
  refine ⟨doneLine_iff, fun s w later i decoded => ⟨fun ends => ?rises, fun abandons => ?falls⟩,
    fun s later => ⟨_, step_reset s later, rfl⟩, fun s t e later stepped => ⟨fun before after => ?raised,
    fun before after => ?lowered⟩⟩
  case rises =>
    obtain ⟨t, stepped, done, empty⟩ := step_of_endsMessage later decoded ends
    exact ⟨t, stepped, (doneLine_iff t).mpr done, empty⟩
  case falls =>
    obtain ⟨t, stepped, left⟩ := step_of_abandonsMessage later decoded abandons
    exact ⟨t, stepped, (doneLine_eq_false_iff t).mpr left⟩
  case raised =>
    exact endsMessage_of_step stepped ((doneLine_eq_false_iff s).mp before) ((doneLine_iff t).mp after)
  case lowered =>
    exact abandonsMessage_of_step stepped ((doneLine_iff s).mp before) ((doneLine_eq_false_iff t).mp after)

end Sys2Proof.Machine
end

section
/-! A buffer in canonical form as a set of cells (log 5): its cells are listed by rising lane, and they are exactly the
lanes that read as something other than an unwritten lane. -/

namespace Sys2Proof.Machine

theorem Memory.wfFrom_iff (low : Nat) (m : Memory) :
    Memory.wfFrom low m = true ↔
      m.Pairwise (fun c d => c.1 < d.1) ∧ ∀ c ∈ m, low ≤ c.1 ∧ c.1 < 12 ∧ c.2 ≠ Config.unwrittenLane := by
  induction m generalizing low with
  | nil => simp [Memory.wfFrom]
  | cons c rest ih =>
    simp only [Memory.wfFrom, Bool.and_eq_true, decide_eq_true_eq, bne_iff_ne, ih, List.pairwise_cons,
      List.forall_mem_cons]
    constructor
    · rintro ⟨⟨⟨above, below⟩, written⟩, sorted, cells⟩
      refine ⟨⟨fun d member => (cells d member).1, sorted⟩, ⟨above, below, written⟩, fun d member => ?_⟩
      obtain ⟨later, valid⟩ := cells d member
      exact ⟨by omega, valid⟩
    · rintro ⟨⟨least, sorted⟩, ⟨above, below, written⟩, cells⟩
      exact ⟨⟨⟨above, below⟩, written⟩, sorted, fun d member => ⟨least d member, (cells d member).2⟩⟩

theorem Memory.read_of_mem {m : Memory} {c : Host.Cell} (sorted : m.Pairwise fun c d => c.1 < d.1) (member : c ∈ m) :
    Memory.read m c.1 = c.2 := by
  induction m with
  | nil => cases member
  | cons d rest ih =>
    obtain ⟨least, restSorted⟩ := List.pairwise_cons.mp sorted
    rcases List.mem_cons.mp member with rfl | later
    · exact if_pos rfl
    · exact (if_neg (least c later).ne).trans (ih restSorted later)

theorem Memory.mem_of_read {m : Memory} {k : Nat} {v : Byte} (reads : Memory.read m k = v)
    (written : v ≠ Config.unwrittenLane) : (k, v) ∈ m := by
  induction m with
  | nil => exact absurd reads.symm written
  | cons c rest ih =>
    by_cases lane : c.1 = k
    · have byte : c.2 = v := (if_pos lane).symm.trans reads
      exact lane ▸ byte ▸ List.mem_cons_self
    · exact List.mem_cons_of_mem c (ih ((if_neg lane).symm.trans reads))

/-- The cells of a canonical buffer are determined by what its lanes read as. -/
theorem Memory.mem_iff_of_wf {m : Memory} (form : Memory.wf m = true) (c : Host.Cell) :
    c ∈ m ↔ c.1 < 12 ∧ Memory.read m c.1 = c.2 ∧ c.2 ≠ Config.unwrittenLane := by
  obtain ⟨sorted, cells⟩ := (Memory.wfFrom_iff 0 m).mp form
  constructor
  · intro member
    obtain ⟨-, below, written⟩ := cells c member
    exact ⟨below, Memory.read_of_mem sorted member, written⟩
  · rintro ⟨-, reads, written⟩
    exact Memory.mem_of_read reads written

/-- Settles O14: the two buffers have the same cells, and both list them by rising lane. -/
theorem equalLanesAreEqualBuffers : Obligations.EqualLanesAreEqualBuffers := by
  intro m m' form form' same
  obtain ⟨sorted, -⟩ := (Memory.wfFrom_iff 0 m).mp form
  obtain ⟨sorted', -⟩ := (Memory.wfFrom_iff 0 m').mp form'
  have sameCells : ∀ c, c ∈ m ↔ c ∈ m' := fun c => by
    rw [Memory.mem_iff_of_wf form, Memory.mem_iff_of_wf form']
    exact and_congr_right fun below => by rw [same ⟨c.1, below⟩]
  have distinct : ∀ {c d : Host.Cell}, c.1 < d.1 → c ≠ d := fun before same => before.ne (congrArg Prod.fst same)
  have perm : m.Perm m' := (List.perm_ext_iff_of_nodup (sorted.imp distinct) (sorted'.imp distinct)).mpr sameCells
  exact perm.eq_of_pairwise (fun c d _ _ before after => absurd before after.not_gt) sorted sorted'

end Sys2Proof.Machine
end

section
/-! Text (30_encoding.md R76): the hexadecimal digits of a number read back as the number, and the line of a command
falls apart into the mnemonic and the operand it was made of. -/

namespace Sys2Proof.Machine

theorem digitValue_hexDigit {d : Nat} (digit : d < 16) : digitValue (hexDigit d) = some d := by
  decide +revert

theorem digitsValue_append (base sofar : Nat) (high low : List Char) :
    digitsValue base sofar (high ++ low) = (digitsValue base sofar high).bind fun v => digitsValue base v low := by
  induction high generalizing sofar with
  | nil => rfl
  | cons c rest ih =>
    simp only [List.cons_append, digitsValue]
    cases digitValue c with
    | none => rfl
    | some d =>
      by_cases digit : d < base
      · simp only [if_pos digit, ih]
      · simp only [if_neg digit, Option.bind_none]

/-- Digits written are digits read, up to the number of digits there are. -/
theorem digitsValue_hexDigits (sofar count v : Nat) :
    digitsValue 16 sofar (hexDigits count v) = some (sofar * 16 ^ count + v % 16 ^ count) := by
  induction count generalizing v with
  | zero => simp [hexDigits, digitsValue, Nat.mod_one]
  | succ count ih =>
    have digit : v % 16 < 16 := Nat.mod_lt v (by decide)
    simp only [hexDigits, digitsValue_append, ih, Option.bind_some, digitsValue, digitValue_hexDigit digit,
      if_pos digit, Option.some.injEq]
    rw [Nat.pow_succ', Nat.mod_mul]
    ring

theorem length_hexDigits (count v : Nat) : (hexDigits count v).length = count := by
  induction count generalizing v with
  | zero => rfl
  | succ count ih => simp [hexDigits, ih]

/-- An operand whose text has a digit for every four of its bits reads back (30_encoding.md R76). -/
theorem operandValue_operandText {bits count : Nat} (x : BitVec bits) (some_digit : 0 < count)
    (enough : bits = 4 * count) : operandValue bits (operandText count x.toNat) = some x.toNat := by
  have fits : x.toNat < 16 ^ count := by
    calc x.toNat < 2 ^ bits := x.isLt
      _ = 16 ^ count := by rw [enough, Nat.pow_mul]
  have number : numberValue ('0' :: 'x' :: hexDigits count x.toNat) = some x.toNat := by
    cases digits : hexDigits count x.toNat with
    | nil => exact absurd (length_hexDigits count x.toNat) (by simp [digits, some_digit.ne])
    | cons c rest =>
      calc digitsValue 16 0 (c :: rest) = some (0 * 16 ^ count + x.toNat % 16 ^ count) := by
            rw [← digits, digitsValue_hexDigits]
        _ = some x.toNat := by rw [Nat.zero_mul, Nat.zero_add, Nat.mod_eq_of_lt fits]
  simp only [operandText, operandValue, number, if_pos x.isLt]

/-- The line of a command with an operand is that command's word (30_encoding.md R76). -/
theorem operandLine_operandText {bits count : Nat} (i : BitVec bits → Instr) (x : BitVec bits)
    (some_digit : 0 < count) (enough : bits = 4 * count) :
    operandLine bits (fun v => i (BitVec.ofNat bits v)) (operandText count x.toNat) = some [encode (i x)] := by
  rw [operandLine, operandValue_operandText x some_digit enough, Option.map_some, BitVec.ofNat_toNat,
    BitVec.setWidth_eq]

/-- A character of a mnemonic or of a number: it neither separates nor begins a comment. -/
def inWord (c : Char) : Prop := c ≠ ' ' ∧ c ≠ ';'

theorem inWord_hexDigit {d : Nat} (digit : d < 16) : inWord (hexDigit d) := by
  unfold inWord
  decide +revert

theorem inWord_hexDigits (count v : Nat) : ∀ c ∈ hexDigits count v, inWord c := by
  induction count generalizing v with
  | zero => simp [hexDigits]
  | succ count ih =>
    have last : inWord (hexDigit (v % 16)) := inWord_hexDigit (Nat.mod_lt v (by decide))
    simpa [hexDigits, or_imp, forall_and, last] using ih (v / 16)

theorem inWord_mnemonic (i : Instr) : ∀ c ∈ i.mnemonic.toList, inWord c := by
  unfold inWord
  cases i <;> simp [Instr.mnemonic]

theorem withoutComment_of_notMem (quoted : Bool) {line : List Char} (plain : ';' ∉ line) :
    withoutComment quoted line = line := by
  induction line generalizing quoted with
  | nil => rfl
  | cons c rest ih =>
    obtain ⟨here, there⟩ := List.ne_and_not_mem_of_not_mem_cons plain
    rw [withoutComment, if_neg fun ⟨comment, _⟩ => here comment.symm, ih _ there]

theorem withoutTrailing_append {front word : List Char} (nonempty : word ≠ []) (plain : ' ' ∉ word) :
    withoutTrailing (front ++ word) = front ++ word := by
  refine List.rdropWhile_eq_self_iff.mpr fun whole => ?_
  rw [List.getLast_append_of_ne_nil whole nonempty, beq_iff_eq]
  exact fun space => plain (space ▸ List.getLast_mem nonempty)

/-- What the text of a command has after the mnemonic. -/
def operandPart : Instr → List Char
  | .startz seed => operandText 8 seed.toNat
  | .startn seed => operandText 8 seed.toNat
  | .pushb byte => operandText 2 byte.toNat
  | .pushw word => operandText 8 word.toNat
  | .nop | .finish | .read | .status | .clear => []

theorem commandText_eq (i : Instr) : commandText i = i.mnemonic.toList ++ operandPart i := by
  cases i <;> simp [commandText, operandPart]

theorem inWord_number (count v : Nat) : ∀ c ∈ '0' :: 'x' :: hexDigits count v, inWord c := by
  simpa [inWord] using inWord_hexDigits count v

/-- After the mnemonic there is nothing, or one space and a number (30_encoding.md R76). -/
theorem operandPart_cases (i : Instr) :
    operandPart i = [] ∨ ∃ count v, operandPart i = ' ' :: '0' :: 'x' :: hexDigits count v := by
  cases i with
  | nop | finish | read | status | clear => exact .inl rfl
  | startz | startn | pushb | pushw => exact .inr ⟨_, _, rfl⟩

/-- The text of a command has no comment and no space at its end. -/
theorem commandText_body (i : Instr) : withoutTrailing (withoutComment false (commandText i)) = commandText i := by
  have mnemonic := inWord_mnemonic i
  have nonempty : i.mnemonic.toList ≠ [] := by cases i <;> simp [Instr.mnemonic]
  rw [commandText_eq]
  rcases operandPart_cases i with alone | ⟨count, v, operand⟩
  · rw [alone, List.append_nil, withoutComment_of_notMem _ fun h => (mnemonic _ h).2 rfl]
    exact withoutTrailing_append (front := []) nonempty fun h => (mnemonic _ h).1 rfl
  · have number := inWord_number count v
    rw [operand, withoutComment_of_notMem, List.append_cons]
    · exact withoutTrailing_append (List.cons_ne_nil _ _) fun h => (number _ h).1 rfl
    · rw [List.mem_append, List.mem_cons]
      rintro (h | h | h)
      · exact (mnemonic _ h).2 rfl
      · cases h
      · exact (number _ h).2 rfl

theorem commandText_head (i : Instr) : (commandText i).takeWhile (· != ' ') = i.mnemonic.toList := by
  rw [commandText_eq, List.takeWhile_append_of_pos fun c h => bne_iff_ne.mpr (inWord_mnemonic i c h).1]
  rcases operandPart_cases i with alone | ⟨count, v, operand⟩
  · simp [alone]
  · simp [operand]

theorem commandText_rest (i : Instr) : (commandText i).dropWhile (· != ' ') = operandPart i := by
  rw [commandText_eq, List.dropWhile_append_of_pos fun c h => bne_iff_ne.mpr (inWord_mnemonic i c h).1]
  rcases operandPart_cases i with alone | ⟨count, v, operand⟩
  · simp [alone]
  · simp [operand]

/-- Settles O6: the mnemonic selects the command's line, and its operand reads back. -/
theorem commandTextAssembles : Obligations.CommandTextAssembles := by
  intro i
  have nonempty : commandText i ≠ [] := by cases i <;> simp [commandText, Instr.mnemonic]
  simp only [assembleLine, commandText_body, commandText_head, commandText_rest, if_neg nonempty]
  cases i with
  | nop | finish | read | status | clear => simp [Instr.mnemonic, operandPart, aloneLine]
  | startz seed =>
    simpa [Instr.mnemonic, operandPart] using operandLine_operandText .startz seed (count := 8) (by decide) rfl
  | startn seed =>
    simpa [Instr.mnemonic, operandPart] using operandLine_operandText .startn seed (count := 8) (by decide) rfl
  | pushb byte =>
    simpa [Instr.mnemonic, operandPart] using operandLine_operandText .pushb byte (count := 2) (by decide) rfl
  | pushw word =>
    simpa [Instr.mnemonic, operandPart] using operandLine_operandText .pushw word (count := 8) (by decide) rfl

end Sys2Proof.Machine
end

section
/-! Reset and the idle step, in every state (70_reset_and_hazards.md R215, R216, 00_scope.md R9), and the fixed vectors
(95_test_vectors.md). -/

namespace Sys2Proof.Machine

/-- Settles O16: the fields of the state after reset, and the canonical form of BUF whatever the free values are. -/
theorem resetIsTakenInEveryState : Obligations.ResetIsTakenInEveryState := fun s later =>
  ⟨applyReset { s with host := later }, step_reset s later, rfl, rfl, rfl, rfl, rfl, rfl, rfl, rfl,
    wf_residueBuf s.resets⟩

/-- Settles O17, by the law of the step with nothing presented. -/
theorem nothingPresentedChangesNothing : Obligations.NothingPresentedChangesNothing := step_nothing

/-- Settles O10, by computing each vector. -/
theorem fixedVectorsAreReproduced : Obligations.FixedVectorsAreReproduced :=
  ⟨by decide, by decide, by decide, by decide, by decide, by decide⟩

end Sys2Proof.Machine
end
